-- ==== Sys2Proof/Word.lean ====
section
/-! DEFINITION. The two sizes of bit vector the machine stores: the 32-bit word (spec 00_scope R9 `XLEN`) and the byte,
which the hardware never addresses and the model uses only to lay a data word out (spec 20_memory R47, 92 D15). -/

namespace Sys2Proof

/-- A word: a 32-bit vector with no signedness of its own (R11, R80). -/
abbrev Word := BitVec 32

/-- A byte of the layout of a data word (R47, D15). -/
abbrev Byte := BitVec 8

end Sys2Proof
end

