-- ==== Sys2Proof/Machine/Primitives.lean ====
section
/-! DEFINITION. The datapath primitives of spec 40_datapath_primitives, R80 to R91: the operations of the source's one
value type, from which every instruction is built. Bit 0 is the least-significant bit (R10); only `slice` counts the
other way, as the source does. -/

namespace Sys2Proof.Machine

/-- `construct(N, k)`: the N-bit vector denoting `k` modulo `2^N`, negative `k` included (R81, R11 `bv_N`). -/
def construct (n : Nat) (k : Int) : BitVec n := BitVec.ofInt n k

/-- `v[hi:lo]`: the field from bit `hi` down to bit `lo` (R10). -/
def bits {n : Nat} (v : BitVec n) (hi lo : Nat) : BitVec (hi - lo + 1) := v.extractLsb' lo (hi - lo + 1)

/-- The source's `slice(s, e)`, inclusive, index 0 the most-significant bit: `v[N-1-s : N-1-e]` (R82, R10). -/
def slice {n : Nat} (v : BitVec n) (s e : Nat) : BitVec (e - s + 1) := v.extractLsb' (n - 1 - e) (e - s + 1)

/-- `pad(32)`: zeros in every new high bit (R83 `zext_32`). The widths that occur are at most 32 (R80). -/
def zext32 {n : Nat} (v : BitVec n) : Word := v.setWidth 32

/-- `signExtend(32)`: the most-significant bit copied into every new high bit (R84 `sext_32`). -/
def sext32 {n : Nat} (v : BitVec n) : Word := v.signExtend 32

/-- `toInteger()`: the unsigned integer the vector denotes (R85 `u`). -/
def toInteger {n : Nat} (v : BitVec n) : Nat := v.toNat

/-- `add(other)`: both operands sign-extended to 32 bits, the sum modulo `2^32`, no carry and no overflow signal
(R86, R87, D3). -/
def bvAdd {n m : Nat} (a : BitVec n) (b : BitVec m) : Word := sext32 a + sext32 b

/-- Bitwise AND of two words (R88). -/
def bvAnd (a b : Word) : Word := a &&& b

/-- `v << k`: bits shifted out of bit 31 are discarded (R12). -/
def shiftLeft (v : Word) (k : Nat) : Word := v <<< k

/-- `invert()`: bitwise complement; used by no instruction (R89). -/
def invert {n : Nat} (v : BitVec n) : BitVec n := ~~~v

/-- `isZero()`: every digit is zero; used by no instruction (R90). -/
def isZero {n : Nat} (v : BitVec n) : Bool := v == 0

/-- `equals(other)`: equality by value, whatever the lengths (R91, D20, C8). -/
def equals {n m : Nat} (a : BitVec n) (b : BitVec m) : Bool := toInteger a == toInteger b

end Sys2Proof.Machine
end

