-- ==== Sys2Proof/Config.lean ====
section
/-! DEFINITION. What the implementation fixes (spec 00_scope R9, 92_eei_decisions): the capacities, the two parameters
the source cannot settle, and the one function it leaves open. -/

namespace Sys2Proof

/-- `NREGS`: number of general registers (R9, R21). -/
abbrev Config.nregs : Nat := 32

/-- `DMEM_WORDS`: number of data-memory words, word addresses 0 to 499 (R9, R35, D19).
UNVERIFIED (log entry 6): the spec calls the literal unaudited; unsafe if another capacity is meant. -/
abbrev Config.dmemWords : Nat := 500

/-- `IMEM_SLOTS`: number of instruction-memory slots, byte addresses 0 to 799 (R9, R36, D19).
UNVERIFIED (log entry 6): the spec calls the literal unaudited; unsafe if another capacity is meant. -/
abbrev Config.imemSlots : Nat := 200

/-- `WORD_BYTES`: the step of `pc` per instruction and its alignment unit (R9). -/
abbrev Config.wordBytes : Nat := 4

/-- `J_TARGET_LIMIT`: `j` is rejected at or above it; its value is `IMEM_SLOTS` (R9, R151, D6).
The other reading, `4 * IMEM_SLOTS`, stays reachable: `State.jumpWithin` takes the limit as an argument. -/
abbrev Config.jTargetLimit : Nat := Config.imemSlots

/-- `BEQ_OFFSET_SIGNED`: the `beq` offset is the sign-extended immediate (R9, R135, D4).
The other reading stays reachable: `branchOffset` takes this flag as an argument. -/
abbrev Config.beqOffsetSigned : Bool := true

/-- `JumpCompatAdjust`: the total function the compatibility jump mode applies to the raw 26-bit field (R9, R152, D8).
No source gives it, so it has NO BODY here: nothing can be proved of its values, and a claim that holds, holds for
every such function. Free value, DESIGN CHOICE (log entry 3); safe. -/
opaque Config.jumpCompatAdjust : BitVec 26 → Word

end Sys2Proof
end

