-- ==== Sys2Proof/Syntax.lean ====
section
/-! DEFINITION. The syntax of the nine instructions: one constructor for each row of spec/opcode_table.json, in the
table's order, holding exactly the fields the instruction reads (spec 30_encoding R61 to R63, R73). The unknown
instruction has no row and no constructor: `decode` rejects it by name (log entry 9). -/

namespace Sys2Proof

/-- A register number: the value of a 5-bit register field, 0 to 31 (R24, R61). -/
abbrev Reg := Fin Config.nregs

/-- The nine instructions (R1, R106). -/
inductive Instr where
  /-- `add rD, rS, rT` (R120). -/
  | add (rd rs rt : Reg)
  /-- `and rD, rS, rT` (R121). -/
  | and (rd rs rt : Reg)
  /-- `jr rS` (R122). -/
  | jr (rs : Reg)
  /-- `j target` (R150 to R152): the raw 26-bit field. -/
  | j (addr26 : BitVec 26)
  /-- `beq rS, rT, off` (R135). -/
  | beq (rs rt : Reg) (imm16 : BitVec 16)
  /-- `addi rT, rS, imm` (R131). -/
  | addi (rt rs : Reg) (imm16 : BitVec 16)
  /-- `andi rT, rS, imm` (R132). -/
  | andi (rt rs : Reg) (imm16 : BitVec 16)
  /-- `lw rT, imm(rS)` (R133): `rt` the destination, `rs` the base. -/
  | lw (rt rs : Reg) (imm16 : BitVec 16)
  /-- `sw rT, imm(rS)` (R134): `rt` the stored register, `rs` the base. -/
  | sw (rt rs : Reg) (imm16 : BitVec 16)
  deriving DecidableEq, Repr

end Sys2Proof
end

