-- ==== Sys2Proof/WellFormed.lean ====
section
/-! DEFINITION. Well-formedness. An `Instr` has no ill-formed term: each operand's type is exactly its field (a register
number is below 32, an immediate has 16 bits, a jump field 26; spec 10_state R24, 30_encoding R66). So the checks stand
where operands and programs come in as plain numbers: the operand ranges of the assembly form (30_encoding R75) and the
capacity of instruction memory (70_reset_and_hazards R194). Each answers `none` or `false` on an ill-formed input. -/

namespace Sys2Proof

/-- A register operand `rN`, `N` from 0 to 31 (R75). -/
def Reg.ofNat? (n : Nat) : Option Reg := if h : n < Config.nregs then some ⟨n, h⟩ else none

/-- An immediate or offset operand, `-32768 <= k <= 32767`, as `bv_16(k)`. R75 gives this range for `addi` and `andi`;
that the operands of `lw`, `sw` and `beq`, for which R75 gives `bv_16` and no range, are held to the same range is a
DESIGN CHOICE (log entry 16); safe. -/
def imm16OfInt? (k : Int) : Option (BitVec 16) :=
  if -32768 ≤ k ∧ k ≤ 32767 then some (BitVec.ofInt 16 k) else none

/-- A `j` target operand as `bv_26(n)` (R63, R75). R75 gives no range; that a target which does not fit the 26-bit field
is refused, not wrapped, is a DESIGN CHOICE (log entry 16); safe. -/
def addr26OfNat? (n : Nat) : Option (BitVec 26) := if n < 2 ^ 26 then some (BitVec.ofNat 26 n) else none

/-- A program fits instruction memory: at most `IMEM_SLOTS` words (R194, R36). -/
def programFits (ws : List Word) : Bool := decide (ws.length ≤ Config.imemSlots)

end Sys2Proof
end

