-- ==== Sys2Proof/Decode.lean ====
section
/-! DEFINITION. The instruction decoder (spec 30_encoding R60 to R73, 41_fetch_decode R105) and, after it, the encoder
written from the same formats. Every word has exactly one outcome; a word that is none of the nine instructions is
rejected by name. -/

namespace Sys2Proof

open Sys2Proof.Machine

/-- What the decoder reads from a word: one of the nine instructions, or the name of why it is unknown (R67, R70). -/
inductive Decoded where
  /-- One of the nine instructions. -/
  | instr (i : Instr)
  /-- Opcode 0 with a function code other than 8, 32, 36 (R69, R70). -/
  | unknownFunct (funct : BitVec 6)
  /-- An opcode other than 0, 2, 4, 8, 12, 35, 43 (R68, R70). -/
  | unknownOpcode (opcode : BitVec 6)
  deriving DecidableEq, Repr

/-- The instruction_decoder's output `kind`: one name for each of the nine instructions, and `unknown` (R8, R67). -/
inductive Kind where
  | add | and | jr | j | beq | addi | andi | lw | sw | unknown
  deriving DecidableEq, Repr

/-- The kind of an instruction: its constructor. -/
def Instr.kind : Instr → Kind
  | .add .. => .add
  | .and .. => .and
  | .jr .. => .jr
  | .j .. => .j
  | .beq .. => .beq
  | .addi .. => .addi
  | .andi .. => .andi
  | .lw .. => .lw
  | .sw .. => .sw

/-- The kind the decoder gives (R67, R70). -/
def Decoded.kind : Decoded → Kind
  | .instr i => i.kind
  | .unknownFunct _ => .unknown
  | .unknownOpcode _ => .unknown

/-- `bits[31:26]` (R61 to R63). -/
def opcodeField (w : Word) : BitVec 6 := bits w 31 26
/-- `bits[5:0]` (R61). -/
def functField (w : Word) : BitVec 6 := bits w 5 0
/-- `bits[25:21]`, a register number (R61, R62). -/
def rsField (w : Word) : Reg := (bits w 25 21).toFin
/-- `bits[20:16]`, a register number (R61, R62). -/
def rtField (w : Word) : Reg := (bits w 20 16).toFin
/-- `bits[15:11]`, a register number (R61). -/
def rdField (w : Word) : Reg := (bits w 15 11).toFin
/-- `bits[15:0]` (R62). -/
def imm16Field (w : Word) : BitVec 16 := bits w 15 0
/-- `bits[25:0]` (R63). -/
def addr26Field (w : Word) : BitVec 26 := bits w 25 0

/-- R-type: opcode 0, selected by the function code (R69). `bits[10:6]`, and for `jr` `bits[20:6]`, are not read (R73). -/
def decodeRType (w : Word) : Decoded :=
  let funct := functField w
  if funct = 32 then .instr (.add (rdField w) (rsField w) (rtField w))
  else if funct = 36 then .instr (.and (rdField w) (rsField w) (rtField w))
  else if funct = 8 then .instr (.jr (rsField w))
  else .unknownFunct funct

/-- I-type: every opcode other than 0 and 2 (R60, R68). -/
def decodeIType (w : Word) : Decoded :=
  let opcode := opcodeField w
  if opcode = 8 then .instr (.addi (rtField w) (rsField w) (imm16Field w))
  else if opcode = 12 then .instr (.andi (rtField w) (rsField w) (imm16Field w))
  else if opcode = 35 then .instr (.lw (rtField w) (rsField w) (imm16Field w))
  else if opcode = 43 then .instr (.sw (rtField w) (rsField w) (imm16Field w))
  else if opcode = 4 then .instr (.beq (rsField w) (rtField w) (imm16Field w))
  else .unknownOpcode opcode

/-- The decoder, in the order of R67. -/
def decode (w : Word) : Decoded :=
  if opcodeField w = 0 then decodeRType w
  else if opcodeField w = 2 then .instr (.j (addr26Field w))
  else decodeIType w

/-- An R-type word: opcode 0, `rs`, `rt`, `rd`, five zero bits, the function code (R61, R75). -/
def encodeRType (rs rt rd : Reg) (funct : BitVec 6) : Word :=
  (0 : BitVec 6) ++ (BitVec.ofFin rs : BitVec 5) ++ (BitVec.ofFin rt : BitVec 5) ++ (BitVec.ofFin rd : BitVec 5)
    ++ (0 : BitVec 5) ++ funct

/-- An I-type word: opcode, `rs`, `rt`, `imm16` (R62). -/
def encodeIType (opcode : BitVec 6) (rs rt : Reg) (imm16 : BitVec 16) : Word :=
  opcode ++ (BitVec.ofFin rs : BitVec 5) ++ (BitVec.ofFin rt : BitVec 5) ++ imm16

/-- The word of an instruction (R61 to R63, R68, R69). That the unread bits are zero is the syntax of R75, the spec's own
decision D18 (log entry 15). -/
def encode : Instr → Word
  | .add rd rs rt => encodeRType rs rt rd 32
  | .and rd rs rt => encodeRType rs rt rd 36
  | .jr rs => encodeRType rs 0 0 8
  | .j addr26 => (2 : BitVec 6) ++ addr26
  | .beq rs rt imm16 => encodeIType 4 rs rt imm16
  | .addi rt rs imm16 => encodeIType 8 rs rt imm16
  | .andi rt rs imm16 => encodeIType 12 rs rt imm16
  | .lw rt rs imm16 => encodeIType 35 rs rt imm16
  | .sw rt rs imm16 => encodeIType 43 rs rt imm16

/-- One row of the opcode table: the word matches when its bits under the mask are `pattern` (R73). -/
structure OpcodeRow where
  /-- The row's `match`. -/
  pattern : Word
  /-- The row's `mask`. -/
  mask : Word
  deriving DecidableEq, Repr

/-- The row of each instruction, as spec/opcode_table.json and R73, R120 to R150 give it. -/
def Instr.row : Instr → OpcodeRow
  | .add .. => ⟨0x00000020, 0xFC00003F⟩
  | .and .. => ⟨0x00000024, 0xFC00003F⟩
  | .jr .. => ⟨0x00000008, 0xFC00003F⟩
  | .j .. => ⟨0x08000000, 0xFC000000⟩
  | .beq .. => ⟨0x10000000, 0xFC000000⟩
  | .addi .. => ⟨0x20000000, 0xFC000000⟩
  | .andi .. => ⟨0x30000000, 0xFC000000⟩
  | .lw .. => ⟨0x8C000000, 0xFC000000⟩
  | .sw .. => ⟨0xAC000000, 0xFC000000⟩

/-- A word matches a row (R73). -/
def OpcodeRow.holds (r : OpcodeRow) (w : Word) : Bool := w &&& r.mask == r.pattern

/-- The instruction the decoder reads from the table's bits: an instruction is one word, whose bit 0 is bit 0 of the
table; bits at or above `nbits` are zero. -/
def decodeTableWord (nbits w : Nat) : Option Instr :=
  match decode (BitVec.ofNat 32 (w % 2 ^ nbits)) with
  | .instr i => some i
  | .unknownFunct _ => none
  | .unknownOpcode _ => none

end Sys2Proof
end

