-- ==== Sys2Proof/Machine/Flags.lean ====
section
/-! DEFINITION. Flag computations. The hardware has no flags, no condition codes and no predicate registers (spec
10_state R27); the one condition the alu computes is `eq`, which `beq` uses in the same step and nothing records. -/

namespace Sys2Proof.Machine

/-- The alu's `eq` output: 1 exactly when all 32 bit pairs match (R91, R92). -/
def aluEq (a b : Word) : Bool := equals a b

end Sys2Proof.Machine
end

