-- ==== Sys2Proof/Machine/State.lean ====
section
/-! DEFINITION. The state of the machine (spec 10_state R20), the events of its diagnostic channel (60_exceptions R161),
its halt status (10_state R31), and the reasons a step stops. -/

namespace Sys2Proof.Machine

/-- Data memory as bytes: byte address `4*a + j` holds byte `j` of word `a`, most-significant byte first
(R47, D15; DESIGN CHOICE, log entry 4; safe). Addresses strictly rise and no entry equals `Memory.unlisted`. -/
abbrev Memory := List Host.Cell

/-- What an unlisted byte reads as: the reset contents of data memory (R35, R38). -/
abbrev Memory.unlisted : Byte := 0

/-- A diagnostic event: a condition of R161 with its `info`. -/
inductive Event where
  /-- Code 1; reported by nothing in hardware, the code is reserved (R162). -/
  | malformedBitPattern
  /-- Code 2; only a host port wider than 5 bits can meet it (R163, R24, D13). -/
  | outOfRangeRegisterIndex (index : Int)
  /-- Code 3; `lw`, `sw` and the host's `getDataMemory` (R164). -/
  | outOfRangeMemoryAddress (address : Int)
  /-- Code 4; the fetch, test 2 (R165). -/
  | misalignedProgramCounter (pc : Word)
  /-- Code 5; the unknown instruction (R166). -/
  | unknownOpcodeOrFunctionCode (word : Word)
  /-- Code 6; the host's `loadInstruction` when every slot is filled (R168). -/
  | instructionCapacityExceeded (word : Word)
  /-- Code 7; `j` (R167). -/
  | jumpTargetOutOfRange (target : Word)
  deriving DecidableEq, Repr

/-- The condition's code (R161, D12). -/
def Event.code : Event → Nat
  | .malformedBitPattern => 1
  | .outOfRangeRegisterIndex _ => 2
  | .outOfRangeMemoryAddress _ => 3
  | .misalignedProgramCounter _ => 4
  | .unknownOpcodeOrFunctionCode _ => 5
  | .instructionCapacityExceeded _ => 6
  | .jumpTargetOutOfRange _ => 7

/-- The halt status, a derived output (R31, R111). -/
inductive HaltStatus where
  /-- A fetch would succeed. -/
  | running
  /-- No instruction in the slot: normal end. -/
  | haltEnd
  /-- Slot index at or above the capacity: normal end. -/
  | haltCapacity
  /-- `pc` not a multiple of 4: fatal end. -/
  | haltMisaligned
  deriving DecidableEq, Repr

/-- The status port's encoding (R31, D12). -/
def HaltStatus.code : HaltStatus → Nat
  | .running => 0
  | .haltEnd => 1
  | .haltCapacity => 2
  | .haltMisaligned => 3

/-- Why a step stops: the three halts of R100, which are the only ways a run ends (R7). A halting step changes no state,
so it has no next state to answer; that it answers a fault is a DESIGN CHOICE (log entry 1). Raised by the fetch alone;
no instruction faults. Each is the spec's own stop, so none hides behaviour: safe. -/
inductive Fault where
  /-- `HALT_CAPACITY`, raised by the fetch: normal end, nothing reported (R101). Safe. -/
  | haltCapacity
  /-- `HALT_MISALIGNED`, raised by the fetch: fatal end, `MisalignedProgramCounter(pc)` reported (R102). Safe. -/
  | haltMisaligned (pc : Word)
  /-- `HALT_END`, raised by the fetch: normal end, nothing reported (R103). Safe. -/
  | haltEnd
  deriving DecidableEq, Repr

/-- Reasons for having no meaning. -/
inductive Refusal where
  /-- Raised by `exec` for an instruction with no meaning yet: none here, every arm has its meaning. Safe. -/
  | notModelled (mnemonic : String)
  deriving DecidableEq, Repr

/-- The state of the machine: the tuple of R20 and, beside it, the history of reports that R32 describes. -/
structure State where
  /-- `x[0]` to `x[31]`, none hard-wired (R21). -/
  regs : Vector Word Config.nregs
  /-- The program counter, a byte address in instruction space (R25). -/
  pc : Word
  /-- Data memory (R35); read and written by whole words (R45). -/
  dmem : Memory
  /-- Instruction memory: the loaded words in load order; slots past its end are absent (R36, R30). -/
  imem : List Word
  /-- The compatibility jump flag (R29). -/
  compatJump : Bool
  /-- The MODEL'S history of emitted events, oldest first; no step reads it (R32; DESIGN CHOICE, log entry 2). -/
  reports : List Event
  deriving DecidableEq, Repr

/-- The machine at power-on, which is the state after reset with the compatibility flag off (R38, R192, D9): every
register and every data word zero, `pc` zero, every instruction slot absent. The empty history is the model's own
(log entry 2). -/
def State.reset : State where
  regs := Vector.replicate Config.nregs 0
  pc := 0
  dmem := []
  imem := []
  compatJump := false
  reports := []

/-- `imem_count`: the number of instructions loaded since the last reset (R30; DEDUCED, log entry 5). -/
def State.imemCount (s : State) : Nat := s.imem.length

end Sys2Proof.Machine
end

