-- ==== Sys2Proof/Machine/Ops.lean ====
section
/-! DEFINITION. The named operations over registers, data memory, the program counter and the diagnostic channel.
The hardware has no exceptions and no traps (spec 60_exceptions R170): what another machine does in an exception entry,
this one does by `State.report`, which changes no architectural state, and there is no return from one (R173). -/

namespace Sys2Proof.Machine

/-! ### Registers -/

/-- `x[i]` (R12). No register is hard-wired (R21). -/
def State.reg (s : State) (r : Reg) : Word := s.regs[r]

/-- `x[i] <- v` (R12): any register, `x[0]` included (R21). -/
def State.setReg (s : State) (r : Reg) (v : Word) : State := { s with regs := s.regs.set r v }

/-! ### Reports -/

/-- `report`: emits one event and changes no architectural state (R160). -/
def State.report (s : State) (e : Event) : State := { s with reports := s.reports ++ [e] }

/-! ### Data memory as bytes, then as words -/

/-- The canonical form: addresses strictly rise, each is a byte of one of the `DMEM_WORDS` words, and no entry equals
what an unlisted address reads as. -/
abbrev Memory.wf (m : Memory) : Prop :=
  m.Pairwise (fun c d => c.1 < d.1) ∧ ∀ c ∈ m, c.1 < 4 * Config.dmemWords ∧ c.2 ≠ Memory.unlisted

/-- The byte at a byte address of the layout (R47, D15). -/
def Memory.readByte : Memory → Nat → Byte
  | [], _ => Memory.unlisted
  | (b, v) :: rest, a => if b = a then v else Memory.readByte rest a

/-- Put a cell before the rest unless it holds what an unlisted address reads as. -/
def Memory.consCell (a : Nat) (v : Byte) (rest : Memory) : Memory := if v = Memory.unlisted then rest else (a, v) :: rest

/-- Write one byte, keeping the canonical form. -/
def Memory.writeByte : Memory → Nat → Byte → Memory
  | [], a, v => Memory.consCell a v []
  | (b, x) :: rest, a, v =>
    if a < b then Memory.consCell a v ((b, x) :: rest)
    else if a = b then Memory.consCell a v rest
    else (b, x) :: Memory.writeByte rest a v

/-- `dmem[a]`: the word at word address `a`, most-significant byte first (R40, D15). -/
def Memory.readWord (m : Memory) (a : Nat) : Word :=
  m.readByte (4 * a) ++ m.readByte (4 * a + 1) ++ m.readByte (4 * a + 2) ++ m.readByte (4 * a + 3)

/-- `dmem[a] <- v`: all 32 bits of word `a` (R43, R45, D15). -/
def Memory.writeWord (m : Memory) (a : Nat) (v : Word) : Memory :=
  (((m.writeByte (4 * a) (bits v 31 24)).writeByte (4 * a + 1) (bits v 23 16)).writeByte (4 * a + 2)
    (bits v 15 8)).writeByte (4 * a + 3) (bits v 7 0)

/-- `dmem[a]` of a state (R20, R35). -/
def State.dword (s : State) (a : Nat) : Word := s.dmem.readWord a

/-- The range test of the load_store_unit: `0 <= a < DMEM_WORDS` (R44). -/
def inRange (a : Int) : Bool := decide (0 ≤ a ∧ a < Config.dmemWords)

/-- `MemRead(a, 32)`: the stored word, or a report and no value (R42). -/
def State.memRead (s : State) (a : Int) : Option Word × State :=
  if inRange a then (some (s.dword a.toNat), s) else (none, s.report (.outOfRangeMemoryAddress a))

/-- `MemWrite(a, 32, v)`: replaces word `a`, or reports and changes nothing else (R43). -/
def State.memWrite (s : State) (a : Int) (v : Word) : State :=
  if inRange a then { s with dmem := s.dmem.writeWord a.toNat v } else s.report (.outOfRangeMemoryAddress a)

/-! ### The program counter -/

/-- `pc <- t`; the value is not checked when it is written (R109). -/
def State.setPc (s : State) (t : Word) : State := { s with pc := t }

/-- `pc <- pc + 4`, the advance before decode, modulo `2^32` (R104). -/
def State.advance (s : State) : State := s.setPc (bvAdd s.pc (construct 32 Config.wordBytes))

/-- A jump to `t` with the range check of `j`: accepted below the limit, else reported with `pc` left as it is
(R150, R151, R152, D6, D7). The limit is an argument so that both readings of D6 can be stated. -/
def State.jumpWithin (limit : Nat) (t : Word) (s : State) : State :=
  if toInteger t < limit then s.setPc t else s.report (.jumpTargetOutOfRange t)

/-- The slot index `u(pc) div 4` (R50). -/
def slotIndex (pc : Word) : Nat := toInteger pc / Config.wordBytes

/-- `halt_status`, a function of `pc` and `imem_count` alone (R31, R111). -/
def State.haltStatus (s : State) : HaltStatus :=
  if Config.imemSlots ≤ slotIndex s.pc then .haltCapacity
  else if toInteger s.pc % Config.wordBytes ≠ 0 then .haltMisaligned
  else if s.imemCount ≤ slotIndex s.pc then .haltEnd
  else .running

/-- The halt status that names a halt (R31, R111). -/
def Fault.status : Fault → HaltStatus
  | .haltCapacity => .haltCapacity
  | .haltMisaligned _ => .haltMisaligned
  | .haltEnd => .haltEnd

/-- What a halting step leaves of a state: the event of a misaligned `pc`, nothing for the two normal ends; no
architectural state changes (R101, R102, R103, R165). -/
def State.absorbHalt (s : State) : Fault → State
  | .haltCapacity => s
  | .haltMisaligned pc => s.report (.misalignedProgramCounter pc)
  | .haltEnd => s

end Sys2Proof.Machine
end

