-- ==== Sys2Proof/Machine/Operands.lean ====
section
/-! DEFINITION. The operand forms: the immediate, the effective address of `lw` and `sw`, the branch target and the jump
target (spec 30_encoding R64 to R66, 20_memory R41, 43_itype R135, 44_jtype R150, R152). There is no other operand
form (R66). -/

namespace Sys2Proof.Machine

/-- The immediate operand: always sign-extended to 32 bits (R64, R130), for `andi` too (R132). -/
def immOperand (imm16 : BitVec 16) : Word := sext32 imm16

/-- `ea = x[rs] + sext_32(imm16)`, modulo `2^32` (R41). -/
def State.effectiveAddress (s : State) (rs : Reg) (imm16 : BitVec 16) : Word := bvAdd (s.reg rs) (immOperand imm16)

/-- `a = u(ea)`: the word address, never negative (R41, R44, D22). -/
def State.wordAddress (s : State) (rs : Reg) (imm16 : BitVec 16) : Nat := toInteger (s.effectiveAddress rs imm16)

/-- The `beq` offset in bytes: the immediate times 4, the low 32 bits (R64, R135). `signed` is `BEQ_OFFSET_SIGNED`:
true for the sign-extended immediate, false for the reading D4 rejects, the unsigned field. -/
def branchOffset (signed : Bool) (imm16 : BitVec 16) : Word :=
  shiftLeft (if signed then sext32 imm16 else zext32 imm16) 2

/-- The `beq` target `pc4 + offset` (R135). -/
def branchTarget (signed : Bool) (pc4 : Word) (imm16 : BitVec 16) : Word := bvAdd pc4 (branchOffset signed imm16)

/-- The `j` target: the field zero-extended and unshifted, or, in the compatibility mode, adjusted by
`JumpCompatAdjust` (R65, R150, R152, D5, D8). -/
def jumpTarget (compat : Bool) (addr26 : BitVec 26) : Word :=
  if compat then Config.jumpCompatAdjust addr26 else zext32 addr26

end Sys2Proof.Machine
end

