-- ==== Sys2Proof/Machine/IType.lean ====
section
/-! DEFINITION. The I-type instructions (spec 43_itype R130 to R135). A meaning runs on the state AFTER the advance of
R104: its `s.pc` is the rules' `pc4` (log entry 12). -/

namespace Sys2Proof.Machine

/-- `if x[rs] == x[rt]: pc <- pc4 + (sext_32(imm16) << 2)`; the target is not checked, no delay slot (R135, R206). -/
def execBeq (rs rt : Reg) (imm16 : BitVec 16) (s : State) : Host.Outcome State Fault Refusal :=
  .next (if aluEq (s.reg rs) (s.reg rt) then s.setPc (branchTarget Config.beqOffsetSigned s.pc imm16) else s)

/-- `x[rt] <- x[rs] + sext_32(imm16)`, modulo `2^32`, nothing reported (R131). -/
def execAddi (rt rs : Reg) (imm16 : BitVec 16) (s : State) : Host.Outcome State Fault Refusal :=
  .next (s.setReg rt (bvAdd (s.reg rs) (immOperand imm16)))

/-- `x[rt] <- x[rs] & sext_32(imm16)`: the mask is sign-extended (R132). -/
def execAndi (rt rs : Reg) (imm16 : BitVec 16) (s : State) : Host.Outcome State Fault Refusal :=
  .next (s.setReg rt (bvAnd (s.reg rs) (immOperand imm16)))

/-- `x[rt] <- MemRead(u(ea), 32)`; out of range the register keeps its value and `MemRead` has reported (R133). -/
def execLw (rt rs : Reg) (imm16 : BitVec 16) (s : State) : Host.Outcome State Fault Refusal :=
  match s.memRead (s.wordAddress rs imm16) with
  | (some v, t) => .next (t.setReg rt v)
  | (none, t) => .next t

/-- `MemWrite(u(ea), 32, x[rt])`: the value is `rt`, the base `rs` (R134, D2). -/
def execSw (rt rs : Reg) (imm16 : BitVec 16) (s : State) : Host.Outcome State Fault Refusal :=
  .next (s.memWrite (s.wordAddress rs imm16) (s.reg rt))

end Sys2Proof.Machine
end

