-- ==== Sys2Proof/Machine/JType.lean ====
section
/-! DEFINITION. The J-type instruction (spec 44_jtype R150 to R152). The meaning runs on the state AFTER the advance of
R104, so a rejected `j` leaves `pc` at `pc4` (D7). -/

namespace Sys2Proof.Machine

/-- `j`: the target of the current mode, range checked; both modes run (R150, R151, R152). -/
def execJ (addr26 : BitVec 26) (s : State) : Host.Outcome State Fault Refusal :=
  .next (s.jumpWithin Config.jTargetLimit (jumpTarget s.compatJump addr26))

end Sys2Proof.Machine
end

