-- ==== Sys2Proof/Machine/RType.lean ====
section
/-! DEFINITION. The R-type instructions (spec 42_rtype R120 to R122). A meaning runs on the state AFTER the advance of
R104: its `s.pc` is the rules' `pc4` (log entry 12). -/

namespace Sys2Proof.Machine

/-- `x[rd] <- x[rs] + x[rt]`, modulo `2^32`, nothing reported (R120). -/
def execAdd (rd rs rt : Reg) (s : State) : Host.Outcome State Fault Refusal :=
  .next (s.setReg rd (bvAdd (s.reg rs) (s.reg rt)))

/-- `x[rd] <- x[rs] & x[rt]` (R121). -/
def execAnd (rd rs rt : Reg) (s : State) : Host.Outcome State Fault Refusal :=
  .next (s.setReg rd (bvAnd (s.reg rs) (s.reg rt)))

/-- `pc <- x[rs]`, all 32 bits, unchecked; no link, no delay slot (R122, R206). -/
def execJr (rs : Reg) (s : State) : Host.Outcome State Fault Refusal :=
  .next (s.setPc (s.reg rs))

end Sys2Proof.Machine
end

