-- ==== Sys2Proof/Machine/Dispatch.lean ====
section
/-! DEFINITION. Dispatch (spec 41_fetch_decode R106): one arm per instruction, each one call of its meaning. -/

namespace Sys2Proof.Machine

-- s is the state after the advance of R104: s.pc is pc4.
def exec (i : Instr) (s : State) : Host.Outcome State Fault Refusal :=
  match i with
  | .add rd rs rt => Sys2Proof.Machine.execAdd rd rs rt s
  | .and rd rs rt => Sys2Proof.Machine.execAnd rd rs rt s
  | .jr rs => Sys2Proof.Machine.execJr rs s
  | .j addr26 => Sys2Proof.Machine.execJ addr26 s
  | .beq rs rt imm16 => Sys2Proof.Machine.execBeq rs rt imm16 s
  | .addi rt rs imm16 => Sys2Proof.Machine.execAddi rt rs imm16 s
  | .andi rt rs imm16 => Sys2Proof.Machine.execAndi rt rs imm16 s
  | .lw rt rs imm16 => Sys2Proof.Machine.execLw rt rs imm16 s
  | .sw rt rs imm16 => Sys2Proof.Machine.execSw rt rs imm16 s

end Sys2Proof.Machine
end

