-- ==== Sys2Proof/Machine/Unknown.lean ====
section
/-! DEFINITION. The unknown instruction: every word that is none of the nine (spec 41_fetch_decode R108, 30_encoding R70).
It has no row in the opcode table and no constructor of `Instr` (log entry 9), but it has its full effect. -/

namespace Sys2Proof.Machine

/-- `report UnknownOpcodeOrFunctionCode(instr)`; no other effect, `pc` stays at `pc4` (R108). -/
def execUnknown (w : Word) (s : State) : Host.Outcome State Fault Refusal :=
  .next (s.report (.unknownOpcodeOrFunctionCode w))

end Sys2Proof.Machine
end

