-- ==== Sys2Proof/Machine/Fetch.lean ====
section
/-! DEFINITION. The fetch_unit (spec 41_fetch_decode R101 to R103, R114) and the run of one fetched word (R105, R106). -/

namespace Sys2Proof.Machine

/-- What the fetch_unit answers: the instruction word, or the halt that applies (R114). -/
inductive Fetched where
  /-- `FETCH_OK` with `instr`. -/
  | word (w : Word)
  /-- One of the three halts. -/
  | halted (f : Fault)
  deriving DecidableEq, Repr

/-- The three tests in the order of R100 (R107, D11) and the read of the slot; an absent slot is one past the loaded
words (R30, R103). A fetch changes no state (R50). -/
def fetch (s : State) : Fetched :=
  if Config.imemSlots ≤ slotIndex s.pc then .halted .haltCapacity
  else if toInteger s.pc % Config.wordBytes ≠ 0 then .halted (.haltMisaligned s.pc)
  else match s.imem[slotIndex s.pc]? with
    | none => .halted .haltEnd
    | some w => .word w

/-- Decode a word and run it on the advanced state: one of the nine instructions, or the unknown instruction
(R105, R106, R108). -/
def runWord (w : Word) (s : State) : Host.Outcome State Fault Refusal :=
  match decode w with
  | .instr i => exec i s
  | .unknownFunct _ => execUnknown w s
  | .unknownOpcode _ => execUnknown w s

/-- Instruction memory with `w` in slot `k`: slots below `k` that were absent are filled with the zero word, since
present slots are always the first ones (R30). -/
def imemWithSlot (imem : List Word) (k : Nat) (w : Word) : List Word :=
  imem.take k ++ List.replicate (k - imem.length) 0 ++ w :: imem.drop (k + 1)

/-- A `pc` from which a fetch can succeed: the given one, or the reset vector where the first two tests halt. -/
def fetchablePc (pc : Word) : Word :=
  if slotIndex pc < Config.imemSlots ∧ toInteger pc % Config.wordBytes = 0 then pc else 0

end Sys2Proof.Machine
end

