-- ==== Sys2Proof/Machine/Step.lean ====
section
/-! DEFINITION. The architectural step (spec 41_fetch_decode R100), and the placing of a word where the next step
fetches it. -/

namespace Sys2Proof.Machine

/-- One step: the fetch tests, the advance of `pc`, then the fetched word (R100). It never refuses. -/
def step (s : State) : Host.Outcome State Fault Refusal :=
  match fetch s with
  | .halted f => .fault f
  | .word w => runWord w s.advance

/-- `s` with the instruction `w` in the slot that the next step fetches. A program is loaded from outside the machine
(R194); this stands for that load (log entry 8). `pc` changes only where no fetch could succeed from it. -/
def State.withFetchWord (s : State) (nbits w : Nat) : State :=
  { s with
    pc := fetchablePc s.pc
    imem := imemWithSlot s.imem (slotIndex (fetchablePc s.pc)) (BitVec.ofNat 32 (w % 2 ^ nbits)) }

end Sys2Proof.Machine
end

