-- ==== Sys2Proof/Machine/HostOps.lean ====
section
/-! DEFINITION. The operations of the environment that drives the core: the source's engine public surface (spec
70_reset_and_hazards R190 to R199, 20_memory R59, 41_fetch_decode R111). They happen between runs only (R200, D21;
log entry 7). -/

namespace Sys2Proof.Machine

/-- `reset()`: registers, data memory, `pc` zero and instruction memory emptied; the compatibility flag unchanged, and
nothing reported, so the history stays (R190, D8, D10). -/
def State.resetOp (s : State) : State := { State.reset with compatJump := s.compatJump, reports := s.reports }

/-- `loadInstruction(w)`: append at the next free slot, or report when every slot is filled (R194, R168). -/
def State.loadInstruction (s : State) (w : Word) : State :=
  if s.imemCount < Config.imemSlots then { s with imem := s.imem ++ [w] }
  else s.report (.instructionCapacityExceeded w)

/-- The register a port index names; none outside 0 to 31. A port of 5 bits cannot leave that range (R24, R163). -/
def portReg (index : Int) : Option Reg := if h : index.toNat < Config.nregs ∧ 0 ≤ index then some ⟨index.toNat, h.1⟩ else none

/-- `setRegister(index, w)`; with an index outside 0 to 31 the write is ignored and reported (R195, R24, D13). -/
def State.setRegister (s : State) (index : Int) (w : Word) : State :=
  match portReg index with
  | some r => s.setReg r w
  | none => s.report (.outOfRangeRegisterIndex index)

/-- `getRegister(index)`: the value, changing nothing; outside 0 to 31 no value and a report (R196, R24, D13). -/
def State.getRegister (s : State) (index : Int) : Option Word × State :=
  match portReg index with
  | some r => (some (s.reg r), s)
  | none => (none, s.report (.outOfRangeRegisterIndex index))

/-- `getDataMemory(address)`: behaves as `MemRead` (R59, R197, D14). -/
def State.getDataMemory (s : State) (address : Int) : Option Word × State := s.memRead address

/-- `getProgramCounter()` (R198). -/
def State.getProgramCounter (s : State) : Word := s.pc

/-- `setCompatibilityJumpOffset(b)`: sets the flag and nothing else (R199). -/
def State.setCompatibilityJumpOffset (s : State) (b : Bool) : State := { s with compatJump := b }

/-- `execute()` under fuel: steps until one halts, and answers the state and the halt status, or no status where the fuel
ran out first, since a run need not end (R111, R112; log entry 11). The halting step changes nothing but the history,
which gains the report of a misaligned `pc` (R102, R165). -/
def run : Nat → State → State × Option HaltStatus
  | 0, s => (s, none)
  | n + 1, s =>
    match step s with
    | .next t => run n t
    | .fault f => (s.absorbHalt f, some f.status)
    | .refused _ => (s, none)

/-- The host operations (R193). -/
inductive HostOp where
  /-- R190. -/
  | reset
  /-- R194. -/
  | loadInstruction (w : Word)
  /-- R195. -/
  | setRegister (index : Int) (w : Word)
  /-- R196. -/
  | getRegister (index : Int)
  /-- R197, R59. -/
  | getDataMemory (address : Int)
  /-- R198. -/
  | getProgramCounter
  /-- R199. -/
  | setCompatibilityJumpOffset (b : Bool)
  /-- R111, with the fuel of `run`. -/
  | execute (fuel : Nat)
  deriving DecidableEq, Repr

/-- What a host operation returns. -/
inductive HostAnswer where
  /-- Nothing to return. -/
  | done
  /-- A word read, or no value. -/
  | value (v : Option Word)
  /-- The halt status of a run, none where the fuel ran out. -/
  | ended (h : Option HaltStatus)
  deriving DecidableEq, Repr

/-- One host operation between runs (R193, R200). After `execute` answers `.ended none` its run is still in progress and
the host has no move (D21): `System.hostMove` keeps that. -/
def State.hostOp (s : State) : HostOp → HostAnswer × State
  | .reset => (.done, s.resetOp)
  | .loadInstruction w => (.done, s.loadInstruction w)
  | .setRegister index w => (.done, s.setRegister index w)
  | .getRegister index => (.value (s.getRegister index).1, (s.getRegister index).2)
  | .getDataMemory address => (.value (s.getDataMemory address).1, (s.getDataMemory address).2)
  | .getProgramCounter => (.value (some s.getProgramCounter), s)
  | .setCompatibilityJumpOffset b => (.done, s.setCompatibilityJumpOffset b)
  | .execute fuel => (.ended (run fuel s).2, (run fuel s).1)

/-- The machine and whose turn it is: the host acts only between runs, the core only in one (R6, R200, D21). Which of
the two it is, is no state of the hardware (R20). -/
inductive System where
  /-- No run is in progress. -/
  | between (s : State)
  /-- A run is in progress; `s` is the state its steps have reached. -/
  | inRun (s : State)
  deriving DecidableEq, Repr

/-- The state of the machine, whoever may act. -/
def System.state : System → State
  | .between s => s
  | .inRun s => s

/-- What an answer leaves: a run in progress where an `execute` has not ended in its fuel, else the host's turn. -/
def System.ofAnswer : HostAnswer × State → System
  | (.done, t) => .between t
  | (.value _, t) => .between t
  | (.ended (some _), t) => .between t
  | (.ended none, t) => .inRun t

/-- The host's move. While a run is in progress it has none, the read-only inspections included, and the run stands where
it stood (R200, D21, 93 U9; log entry 7). -/
def System.hostMove (op : HostOp) : System → System
  | .between s => .ofAnswer (s.hostOp op)
  | .inRun s => .inRun s

/-- The core's move: at most `fuel` further steps of the run in progress (R6, R111); between runs it has none. -/
def System.coreMove (fuel : Nat) : System → System
  | .between s => .between s
  | .inRun s => .ofAnswer (.ended (run fuel s).2, (run fuel s).1)

/-- A move of one of the two agents (R6). -/
inductive Move where
  /-- The host's. -/
  | host (op : HostOp)
  /-- The core's. -/
  | core (fuel : Nat)
  deriving DecidableEq, Repr

/-- One move. -/
def System.move : Move → System → System
  | .host op, y => y.hostMove op
  | .core fuel, y => y.coreMove fuel

/-- A session: moves one after another (R200, R201). -/
def System.session : System → List Move → System
  | y, [] => y
  | y, m :: rest => System.session (y.move m) rest

/-- A session that starts between runs, as from power-on (R201). -/
def State.session (s : State) (moves : List Move) : System := (System.between s).session moves

end Sys2Proof.Machine
end

