-- ==== Sys2Proof/Safety.lean ====
section
/-! DEFINITION. What counts as a good state and a good run, in the terms claims use. -/

namespace Sys2Proof.Machine

/-- The state invariant: at most `IMEM_SLOTS` instructions are loaded (R39), and data memory is in its canonical form,
which is no rule of the spec but the model's own (DESIGN CHOICE, log entry 4). `pc` has no invariant (R39); the widths
are in the types. -/
abbrev State.Inv (s : State) : Prop := s.imemCount ≤ Config.imemSlots ∧ s.dmem.wf

/-- "No event was reported" from `s` to `t`, the clause that rules out silently skipped effects (R169). -/
abbrev State.Quiet (s t : State) : Prop := t.reports = s.reports

/-- The bytes of data memory read the same in both states, every address of the layout included. -/
abbrev State.SameData (s t : State) : Prop := ∀ a, t.dmem.readByte a = s.dmem.readByte a

/-- What no instruction may touch is the same in both states: instruction memory and the compatibility flag
(R29, R30, R51). -/
abbrev State.SameHostState (s t : State) : Prop := t.imem = s.imem ∧ t.compatJump = s.compatJump

/-- A normal end of a run: `HALT_CAPACITY` or `HALT_END`, not the fatal `HALT_MISALIGNED` (R111). -/
def HaltStatus.normalEnd : HaltStatus → Bool
  | .running => false
  | .haltEnd => true
  | .haltCapacity => true
  | .haltMisaligned => false

/-- A good run under the given fuel: it ends normally and reports nothing (R111, R169). -/
def State.RunsWell (s : State) (fuel : Nat) : Prop :=
  (run fuel s).2.any HaltStatus.normalEnd = true ∧ s.Quiet (run fuel s).1

/-- `pc` is word-aligned (R25, R102). -/
abbrev State.Aligned (s : State) : Prop := s.pc.toNat % 4 = 0

/-- The registers an instruction reads (R23). -/
def readRegs : Instr → List Reg
  | .add _ rs rt => [rs, rt]
  | .and _ rs rt => [rs, rt]
  | .jr rs => [rs]
  | .j _ => []
  | .beq rs rt _ => [rs, rt]
  | .addi _ rs _ => [rs]
  | .andi _ rs _ => [rs]
  | .lw _ rs _ => [rs]
  | .sw rt rs _ => [rs, rt]

/-- The register an instruction writes, if any (R23). -/
def writtenReg : Instr → Option Reg
  | .add rd _ _ => some rd
  | .and rd _ _ => some rd
  | .jr _ => none
  | .j _ => none
  | .beq _ _ _ => none
  | .addi rt _ _ => some rt
  | .andi rt _ _ => some rt
  | .lw rt _ _ => some rt
  | .sw _ _ _ => none

/-- The bits of its word an instruction reads; the others may hold any value (R73). -/
def readBits : Instr → Word
  | .add .. => 0xFFFFF83F
  | .and .. => 0xFFFFF83F
  | .jr .. => 0xFFE0003F
  | .j .. => 0xFFFFFFFF
  | .beq .. => 0xFFFFFFFF
  | .addi .. => 0xFFFFFFFF
  | .andi .. => 0xFFFFFFFF
  | .lw .. => 0xFFFFFFFF
  | .sw .. => 0xFFFFFFFF

end Sys2Proof.Machine
end

