-- ==== Sys2Proof/Certificates/Slice0/Obligations.lean ====
section
/-! DEFINITION. The statements for the provers. In a statement about `exec` the state `s` is the one after the advance of
spec 41_fetch_decode R104, so `s.pc` is the rules' `pc4`; a statement about `step` starts before it. -/

open Sys2Proof Sys2Proof.Machine

/-- R120 `add`: encoding, sum modulo `2^32`, nothing reported, and the frame. `s` is the state after the advance
(`s.pc` is `pc4`). That an overflow wraps and reports nothing is the spec's own decision D3. -/
def Obligations.AddWritesWrappedSum : Prop :=
  (∀ w : Word, w &&& 0xFC00003F#32 = 0x00000020#32 ↔ decode w = .instr (.add (w.extractLsb' 11 5).toFin (w.extractLsb' 21 5).toFin (w.extractLsb' 16 5).toFin)) ∧
  ∀ (rd rs rt : Reg) (s : State), ∃ t, exec (.add rd rs rt) s = .next t ∧
    (t.reg rd).toNat = ((s.reg rs).toNat + (s.reg rt).toNat) % 2 ^ 32 ∧ (∀ q, q ≠ rd → t.reg q = s.reg q) ∧
    t.pc = s.pc ∧ s.SameData t ∧ s.SameHostState t ∧ t.reports = s.reports

/-- R121 `and`: encoding, bit by bit result, nothing reported, and the frame. -/
def Obligations.AndWritesBitwiseAnd : Prop :=
  (∀ w : Word, w &&& 0xFC00003F#32 = 0x00000024#32 ↔ decode w = .instr (.and (w.extractLsb' 11 5).toFin (w.extractLsb' 21 5).toFin (w.extractLsb' 16 5).toFin)) ∧
  ∀ (rd rs rt : Reg) (s : State), ∃ t, exec (.and rd rs rt) s = .next t ∧
    (∀ i, i < 32 → (t.reg rd).getLsbD i = ((s.reg rs).getLsbD i && (s.reg rt).getLsbD i)) ∧
    (∀ q, q ≠ rd → t.reg q = s.reg q) ∧
    t.pc = s.pc ∧ s.SameData t ∧ s.SameHostState t ∧ t.reports = s.reports

/-- R122 `jr`: encoding, the whole register into `pc`, no check, no link, and the frame. -/
def Obligations.JrLoadsPcFromRegister : Prop :=
  (∀ w : Word, w &&& 0xFC00003F#32 = 0x00000008#32 ↔ decode w = .instr (.jr (w.extractLsb' 21 5).toFin)) ∧
  ∀ (rs : Reg) (s : State), ∃ t, exec (.jr rs) s = .next t ∧
    t.pc = s.reg rs ∧ (∀ q, t.reg q = s.reg q) ∧
    s.SameData t ∧ s.SameHostState t ∧ t.reports = s.reports

/-- R150 and R151 `j` with the compatibility mode off: accepted and rejected target, and the frame. The unshifted
field, the scale of the check and `pc4` after a rejection are the spec's own decisions D5, D6, D7. -/
def Obligations.JLoadsFieldBelowLimit : Prop :=
  (∀ w : Word, w &&& 0xFC000000#32 = 0x08000000#32 ↔ decode w = .instr (.j (w.extractLsb' 0 26))) ∧
  ∀ (addr26 : BitVec 26) (s : State), s.compatJump = false → ∃ t, exec (.j addr26) s = .next t ∧
    t.pc = (if addr26.toNat < Config.jTargetLimit then addr26.setWidth 32 else s.pc) ∧
    t.reports = (if addr26.toNat < Config.jTargetLimit then s.reports
      else s.reports ++ [.jumpTargetOutOfRange (addr26.setWidth 32)]) ∧
    (∀ q, t.reg q = s.reg q) ∧ s.SameData t ∧ s.SameHostState t

/-- R152 `j` with the compatibility mode on. That the mode runs on an opaque `JumpCompatAdjust` instead of being
refused is the model's choice among the two the spec offers (log entry 3). -/
def Obligations.JCompatModeUsesAdjustedTarget : Prop :=
  ∀ (addr26 : BitVec 26) (s : State), s.compatJump = true → ∃ t, exec (.j addr26) s = .next t ∧
    t.pc = (if (Config.jumpCompatAdjust addr26).toNat < Config.jTargetLimit then Config.jumpCompatAdjust addr26
      else s.pc) ∧
    t.reports = (if (Config.jumpCompatAdjust addr26).toNat < Config.jTargetLimit then s.reports
      else s.reports ++ [.jumpTargetOutOfRange (Config.jumpCompatAdjust addr26)]) ∧
    (∀ q, t.reg q = s.reg q) ∧ s.SameData t ∧ s.SameHostState t

/-- R135 `beq`: encoding, signed offset counted in instructions from `pc4`, untaken case, and the frame. That the
offset is signed is the spec's own decision D4. -/
def Obligations.BeqBranchesWhenEqual : Prop :=
  (∀ w : Word, w &&& 0xFC000000#32 = 0x10000000#32 ↔ decode w = .instr (.beq (w.extractLsb' 21 5).toFin (w.extractLsb' 16 5).toFin (w.extractLsb' 0 16))) ∧
  ∀ (rs rt : Reg) (imm16 : BitVec 16) (s : State), ∃ t, exec (.beq rs rt imm16) s = .next t ∧
    t.pc = (if s.reg rs = s.reg rt then BitVec.ofInt 32 (s.pc.toNat + imm16.toInt * 4) else s.pc) ∧
    (∀ q, t.reg q = s.reg q) ∧ s.SameData t ∧ s.SameHostState t ∧ t.reports = s.reports

/-- R131 `addi`: encoding, signed immediate, silent wrap, and the frame. That an overflow wraps and reports nothing is
the spec's own decision D3. -/
def Obligations.AddiWritesWrappedSum : Prop :=
  (∀ w : Word, w &&& 0xFC000000#32 = 0x20000000#32 ↔ decode w = .instr (.addi (w.extractLsb' 16 5).toFin (w.extractLsb' 21 5).toFin (w.extractLsb' 0 16))) ∧
  ∀ (rt rs : Reg) (imm16 : BitVec 16) (s : State), ∃ t, exec (.addi rt rs imm16) s = .next t ∧
    t.reg rt = BitVec.ofInt 32 ((s.reg rs).toNat + imm16.toInt) ∧ (∀ q, q ≠ rt → t.reg q = s.reg q) ∧
    t.pc = s.pc ∧ s.SameData t ∧ s.SameHostState t ∧ t.reports = s.reports

/-- R132 `andi`: encoding, the mask sign-extended (not zero-extended), and the frame. -/
def Obligations.AndiMasksWithSignExtension : Prop :=
  (∀ w : Word, w &&& 0xFC000000#32 = 0x30000000#32 ↔ decode w = .instr (.andi (w.extractLsb' 16 5).toFin (w.extractLsb' 21 5).toFin (w.extractLsb' 0 16))) ∧
  ∀ (rt rs : Reg) (imm16 : BitVec 16) (s : State), ∃ t, exec (.andi rt rs imm16) s = .next t ∧
    (∀ i, i < 32 → (t.reg rt).getLsbD i = ((s.reg rs).getLsbD i && imm16.getLsbD (min i 15))) ∧
    (∀ q, q ≠ rt → t.reg q = s.reg q) ∧
    t.pc = s.pc ∧ s.SameData t ∧ s.SameHostState t ∧ t.reports = s.reports

/-- R133 `lw`: encoding, word address, the word loaded whole, the absorbed out-of-range case, and the frame. -/
def Obligations.LwLoadsWordInRange : Prop :=
  (∀ w : Word, w &&& 0xFC000000#32 = 0x8C000000#32 ↔ decode w = .instr (.lw (w.extractLsb' 16 5).toFin (w.extractLsb' 21 5).toFin (w.extractLsb' 0 16))) ∧
  ∀ (rt rs : Reg) (imm16 : BitVec 16) (s : State) (a : Nat),
    a = (BitVec.ofInt 32 ((s.reg rs).toNat + imm16.toInt)).toNat →
    ∃ t, exec (.lw rt rs imm16) s = .next t ∧
    t.reg rt = (if a < Config.dmemWords then s.dword a else s.reg rt) ∧ (∀ q, q ≠ rt → t.reg q = s.reg q) ∧
    t.reports = (if a < Config.dmemWords then s.reports else s.reports ++ [.outOfRangeMemoryAddress a]) ∧
    t.pc = s.pc ∧ s.SameData t ∧ s.SameHostState t

/-- R134 `sw`: encoding, value `rt` and base `rs`, all 32 bits stored, the absorbed out-of-range case, and the frame:
the stored bytes are the four of word `a`. The value clause has the invariant as premise, which `StepKeepsInvariant`
states (its canonical form of data memory is the model's choice, log entry 4). That the value is `rt` is the spec's
own decision D2. -/
def Obligations.SwStoresWordInRange : Prop :=
  (∀ w : Word, w &&& 0xFC000000#32 = 0xAC000000#32 ↔ decode w = .instr (.sw (w.extractLsb' 16 5).toFin (w.extractLsb' 21 5).toFin (w.extractLsb' 0 16))) ∧
  ∀ (rt rs : Reg) (imm16 : BitVec 16) (s : State) (a : Nat),
    a = (BitVec.ofInt 32 ((s.reg rs).toNat + imm16.toInt)).toNat →
    ∃ t, exec (.sw rt rs imm16) s = .next t ∧
    (s.Inv → a < Config.dmemWords → t.dword a = s.reg rt) ∧
    (∀ b, b < 4 * a ∨ 4 * a + 3 < b ∨ Config.dmemWords ≤ a → t.dmem.readByte b = s.dmem.readByte b) ∧
    t.reports = (if a < Config.dmemWords then s.reports else s.reports ++ [.outOfRangeMemoryAddress a]) ∧
    (∀ q, t.reg q = s.reg q) ∧ t.pc = s.pc ∧ s.SameHostState t

/-- R108 and R70: the unknown instruction is defined behaviour, a reported no-op. -/
def Obligations.UnknownWordIsReportedNoOp : Prop :=
  ∀ (s : State) (w : Word), s.pc.toNat / 4 < Config.imemSlots → s.pc.toNat % 4 = 0 →
    s.imem[s.pc.toNat / 4]? = some w →
    (((w.extractLsb' 26 6).toNat = 0 ∧ (w.extractLsb' 0 6).toNat ∉ [8, 32, 36]) ∨
      (w.extractLsb' 26 6).toNat ∉ [0, 2, 4, 8, 12, 35, 43]) →
    (∀ i, decode w ≠ .instr i) ∧ ∃ t, step s = .next t ∧
      t.reports = s.reports ++ [.unknownOpcodeOrFunctionCode w] ∧ t.pc = s.pc + 4#32 ∧
      (∀ q, t.reg q = s.reg q) ∧ s.SameData t ∧ s.SameHostState t

/-- R67: the decoder is total, every word gets exactly one kind. -/
def Obligations.DecoderFollowsOpcodeMap : Prop :=
  ∀ (w : Word) (opcode funct : Nat), opcode = (w.extractLsb' 26 6).toNat → funct = (w.extractLsb' 0 6).toNat →
    decode w =
      if opcode = 0 then
        if funct = 32 then .instr (.add (w.extractLsb' 11 5).toFin (w.extractLsb' 21 5).toFin (w.extractLsb' 16 5).toFin)
        else if funct = 36 then .instr (.and (w.extractLsb' 11 5).toFin (w.extractLsb' 21 5).toFin (w.extractLsb' 16 5).toFin)
        else if funct = 8 then .instr (.jr (w.extractLsb' 21 5).toFin)
        else .unknownFunct (w.extractLsb' 0 6)
      else if opcode = 2 then .instr (.j (w.extractLsb' 0 26))
      else if opcode = 8 then .instr (.addi (w.extractLsb' 16 5).toFin (w.extractLsb' 21 5).toFin (w.extractLsb' 0 16))
      else if opcode = 12 then .instr (.andi (w.extractLsb' 16 5).toFin (w.extractLsb' 21 5).toFin (w.extractLsb' 0 16))
      else if opcode = 35 then .instr (.lw (w.extractLsb' 16 5).toFin (w.extractLsb' 21 5).toFin (w.extractLsb' 0 16))
      else if opcode = 43 then .instr (.sw (w.extractLsb' 16 5).toFin (w.extractLsb' 21 5).toFin (w.extractLsb' 0 16))
      else if opcode = 4 then .instr (.beq (w.extractLsb' 21 5).toFin (w.extractLsb' 16 5).toFin (w.extractLsb' 0 16))
      else .unknownOpcode (w.extractLsb' 26 6)

/-- No bit of an operand is dropped between the encoder and the decoder (R61 to R63, R67). -/
def Obligations.DecodeEncodeRoundTrip : Prop :=
  ∀ i : Instr, decode (encode i) = .instr i

/-- The other direction of the round trip (R73). That the unread bits come back as 0 is the encoder's choice, after
the syntax of R75, which the spec marks as its own decision D18 (log entry 15, DEDUCED). -/
def Obligations.EncodeDecodeKeepsReadBits : Prop :=
  ∀ (w : Word) (i : Instr), decode w = .instr i → encode i = w &&& readBits i

/-- R73: bits the decoder never reads may hold any value, and every other bit counts. The spec marks R73 as derived
from its R67. -/
def Obligations.UnreadBitsDoNotMatter : Prop :=
  (∀ (w w' : Word) (i : Instr), decode w = .instr i → (decode w' = .instr i ↔ w' &&& readBits i = w &&& readBits i)) ∧
  ∀ w : Word,
    (w &&& 0xFC00003F#32 = 0x00000020#32 ↔ ∃ rd rs rt, decode w = .instr (.add rd rs rt)) ∧
    (w &&& 0xFC00003F#32 = 0x00000024#32 ↔ ∃ rd rs rt, decode w = .instr (.and rd rs rt)) ∧
    (w &&& 0xFC00003F#32 = 0x00000008#32 ↔ ∃ rs, decode w = .instr (.jr rs))

/-- R67: the tests cannot overlap, so their order does not matter; the rows are those of spec/opcode_table.json.
`Instr.kind` names an instruction's constructor. -/
def Obligations.OpcodeRowsDoNotOverlap : Prop :=
  (∀ (i : Instr) (w : Word), i.row.holds w = true ↔ (decode w).kind = i.kind) ∧
  (∀ (i j : Instr) (w : Word), i.row.holds w = true → j.row.holds w = true → i.kind = j.kind) ∧
  ∀ w : Word, (decode w).kind = .unknown ↔ ∀ i : Instr, i.row.holds w = false

/-- The spec's own words (95_test_vectors P1, P4, S6, S9, R9, I18, U1, U7). -/
def Obligations.SpecExampleWordsDecode : Prop :=
  decode 0x00221820#32 = .instr (.add 3 1 2) ∧ decode 0x00011024#32 = .instr (.and 2 0 1) ∧
  decode 0x03E00008#32 = .instr (.jr 31) ∧ decode 0x08000004#32 = .instr (.j 4) ∧
  decode 0x1000FFFD#32 = .instr (.beq 0 0 (BitVec.ofInt 16 (-3))) ∧ decode 0x20010005#32 = .instr (.addi 1 0 5) ∧
  decode 0x3085FFFC#32 = .instr (.andi 5 4 (BitVec.ofInt 16 (-4))) ∧ decode 0x8C04000A#32 = .instr (.lw 4 0 10) ∧
  decode 0xAC220003#32 = .instr (.sw 2 1 3) ∧
  decode 0x00000000#32 = .unknownFunct 0 ∧ decode 0xFFFFFFFF#32 = .unknownOpcode 63

/-- R104: the advance happens before decode, never wraps, and is all the step adds around the instruction. -/
def Obligations.StepRunsDecodedInstruction : Prop :=
  ∀ (s : State) (w : Word) (i : Instr), s.pc.toNat / 4 < Config.imemSlots → s.pc.toNat % 4 = 0 →
    s.imem[s.pc.toNat / 4]? = some w → decode w = .instr i →
    step s = exec i { s with pc := BitVec.ofNat 32 (s.pc.toNat + 4) } ∧ s.pc.toNat + 4 < 2 ^ 32

/-- R100, R107: the three tests in order, and no other halt. -/
def Obligations.StepHaltsExactlyByThreeTests : Prop :=
  ∀ s : State,
    (step s = .fault .haltCapacity ↔ Config.imemSlots ≤ s.pc.toNat / 4) ∧
    (∀ p, step s = .fault (.haltMisaligned p) ↔
      p = s.pc ∧ s.pc.toNat / 4 < Config.imemSlots ∧ s.pc.toNat % 4 ≠ 0) ∧
    (step s = .fault .haltEnd ↔
      s.pc.toNat / 4 < Config.imemSlots ∧ s.pc.toNat % 4 = 0 ∧ s.imemCount ≤ s.pc.toNat / 4) ∧
    ((∃ t, step s = .next t) ↔ s.haltStatus = .running)

/-- R101, R102, R103, R165. The order of the three tests (R100, R107) is the spec's own decision D11. -/
def Obligations.RunEndsAtThreeHaltsUnchanged : Prop :=
  ∀ (s : State) (n : Nat),
    (Config.imemSlots ≤ s.pc.toNat / 4 → run (n + 1) s = (s, some .haltCapacity)) ∧
    (s.pc.toNat / 4 < Config.imemSlots → s.pc.toNat % 4 ≠ 0 → run (n + 1) s =
      ({ s with reports := s.reports ++ [.misalignedProgramCounter s.pc] }, some .haltMisaligned)) ∧
    (s.pc.toNat / 4 < Config.imemSlots → s.pc.toNat % 4 = 0 → s.imemCount ≤ s.pc.toNat / 4 →
      run (n + 1) s = (s, some .haltEnd))

/-- R169, R170: every condition but the misaligned `pc` is absorbed; there are no traps. That `j` completes, and no
step refuses, with the compatibility flag on is the model's choice (log entry 3, DESIGN CHOICE): R152 and D8 let a
model refuse that run. -/
def Obligations.StepNeverRefusesAndInstructionsComplete : Prop :=
  ∀ s : State, (∀ i, ∃ t, exec i s = .next t) ∧ (∀ w, ∃ t, execUnknown w s = .next t) ∧ (∀ r, step s ≠ .refused r)

/-- R7, R111: a run repeats steps until one halts, so its result does not depend on the fuel that bounds it. -/
def Obligations.EndedRunIgnoresMoreFuel : Prop :=
  ∀ (n m : Nat) (s t : State) (h : HaltStatus), run n s = (t, some h) → run (n + m) s = (t, some h)

/-- R113: halting is a function of the state. That a rerun depends on the state alone is the spec's own decision D23.
-/
def Obligations.HaltedCoreStaysHalted : Prop :=
  ∀ (n : Nat) (s t : State) (h : HaltStatus), run n s = (t, some h) →
    t.haltStatus = h ∧
    (∀ m, run (m + 1) t = (if h = .haltMisaligned
      then ({ t with reports := t.reports ++ [.misalignedProgramCounter t.pc] }, some h) else (t, some h))) ∧
    (h = .haltEnd → ∀ ws : List Word, t.pc.toNat / 4 < t.imemCount + ws.length →
      t.imemCount + ws.length ≤ Config.imemSlots →
      (ws.foldl State.loadInstruction t).haltStatus = .running ∧
      (ws.foldl State.loadInstruction t).pc = t.pc ∧ (ws.foldl State.loadInstruction t).regs = t.regs ∧
      (ws.foldl State.loadInstruction t).dmem = t.dmem) ∧
    (h = .haltCapacity ∨ h = .haltMisaligned → ∀ op, op ≠ .reset → (t.hostOp op).2.haltStatus = h)

/-- R109: the next program counter (`s.pc` is `pc4`). The targets of `beq` and `j` rest on the spec's own decisions D4
to D7. -/
def Obligations.NextPcTable : Prop :=
  (∀ (i : Instr) (s t : State), s.compatJump = false → exec i s = .next t → t.pc = match i with
    | .jr rs => s.reg rs
    | .beq rs rt imm16 => if s.reg rs = s.reg rt then s.pc + (imm16.signExtend 32) <<< 2 else s.pc
    | .j addr26 => if addr26.toNat < Config.jTargetLimit then addr26.setWidth 32 else s.pc
    | .add .. | .and .. | .addi .. | .andi .. | .lw .. | .sw .. => s.pc) ∧
  ∀ (w : Word) (s t : State), execUnknown w s = .next t → t.pc = s.pc

/-- R172, R110: each instruction has at most one source of one condition. -/
def Obligations.EachInstructionHasItsOneCondition : Prop :=
  (∀ (i : Instr) (s t : State), exec i s = .next t → t.reports = s.reports ∨ ∃ e, t.reports = s.reports ++ [e] ∧
    match i with
    | .lw .. | .sw .. => ∃ a, e = .outOfRangeMemoryAddress a
    | .j _ => ∃ p, e = .jumpTargetOutOfRange p
    | .add .. | .and .. | .jr .. | .addi .. | .andi .. | .beq .. => False) ∧
  ∀ (w : Word) (s t : State), execUnknown w s = .next t → t.reports = s.reports ++ [.unknownOpcodeOrFunctionCode w]

/-- R110, in what can be observed of a step: what changed. That a report goes with no other effect is R108, R133, R134
and R151; `pc4` after a rejected `j` is the spec's own decision D7. -/
def Obligations.OneEffectPerStep : Prop :=
  ∀ s t : State, step s = .next t →
    (∀ q r, t.reg q ≠ s.reg q → t.reg r ≠ s.reg r → q = r) ∧
    (∀ a b, t.dword a ≠ s.dword a → t.dword b ≠ s.dword b → a = b) ∧
    (t.reports = s.reports ∨ ∃ e, t.reports = s.reports ++ [e]) ∧
    (∀ q, t.reg q ≠ s.reg q → (∀ a, t.dword a = s.dword a) ∧ t.pc = s.pc + 4#32) ∧
    (∀ a, t.dword a ≠ s.dword a → t.pc = s.pc + 4#32) ∧
    (t.reports ≠ s.reports → (∀ q, t.reg q = s.reg q) ∧ (∀ a, t.dword a = s.dword a) ∧ t.pc = s.pc + 4#32)

/-- R23: the reads and the writes of each instruction, as noninterference. -/
def Obligations.InstructionReadsAndWritesItsRegisters : Prop :=
  ∀ (i : Instr) (s s' t t' : State), s' = { s with regs := s'.regs } → (∀ r ∈ readRegs i, s'.reg r = s.reg r) →
    exec i s = .next t → exec i s' = .next t' →
    t' = { t with regs := t'.regs } ∧
    (∀ q, writtenReg i ≠ some q → t.reg q = s.reg q ∧ t'.reg q = s'.reg q) ∧
    (∀ q, writtenReg i = some q → t'.reg q = t.reg q ∨ (t.reg q = s.reg q ∧ t'.reg q = s'.reg q))

/-- R51: the core never writes instruction memory; a loaded word is never modified. -/
def Obligations.CoreNeverWritesInstructionMemory : Prop :=
  (∀ s t : State, step s = .next t → t.imem = s.imem) ∧ (∀ (n : Nat) (s : State), (run n s).1.imem = s.imem) ∧
  ∀ (s : State) (op : HostOp), (s.hostOp op).2.imem = match op with
    | .loadInstruction w => if s.imemCount < Config.imemSlots then s.imem ++ [w] else s.imem
    | .reset => []
    | .setRegister .. | .getRegister _ | .getDataMemory _ | .getProgramCounter
    | .setCompatibilityJumpOffset _ | .execute _ => s.imem

/-- R59: during a run data memory changes only by `sw`. -/
def Obligations.DataMemoryChangesOnlyBySw : Prop :=
  ∀ (s t : State) (a : Nat), s.Inv → step s = .next t → t.dword a ≠ s.dword a →
    ∃ w rt rs imm16, s.imem[s.pc.toNat / 4]? = some w ∧ decode w = .instr (.sw rt rs imm16) ∧
      a < Config.dmemWords ∧ a = (s.reg rs + imm16.signExtend 32).toNat ∧ t.dword a = s.reg rt

/-- R45's round-trip property. -/
def Obligations.StoreThenLoadReturnsValue : Prop :=
  ∀ (rt ru rs : Reg) (imm16 : BitVec 16) (s : State), s.Inv →
    (s.reg rs + imm16.signExtend 32).toNat < Config.dmemWords →
    ∃ t u, exec (.sw rt rs imm16) s = .next t ∧ exec (.lw ru rs imm16) t = .next u ∧
      u.reg ru = s.reg rt ∧ t.reports = s.reports ∧ u.reports = s.reports

/-- R32: the diagnostic channel is an output, not state; the model's field for it (log entry 2) is never read. -/
def Obligations.ReportHistoryNeverInfluencesAStep : Prop :=
  ∀ (s : State) (l : List Event),
    (∀ t, step s = .next t → ∃ new, new.length ≤ 1 ∧ t.reports = s.reports ++ new ∧
      step { s with reports := l } = .next { t with reports := l ++ new }) ∧
    (∀ f, step s = .fault f → step { s with reports := l } = .fault f)

/-- R29, R152: no instruction but `j` reads the flag, none writes it. That reset leaves it is the spec's own decision
D8. -/
def Obligations.CompatFlagIsReadByJAndSetByHostOnly : Prop :=
  (∀ (i : Instr) (s t : State) (b : Bool), (∀ a, i ≠ .j a) → exec i s = .next t →
    exec i { s with compatJump := b } = .next { t with compatJump := b }) ∧
  (∀ s t : State, step s = .next t → t.compatJump = s.compatJump) ∧
  (∀ (s : State) (op : HostOp), (∀ b, op ≠ .setCompatibilityJumpOffset b) →
    (s.hostOp op).2.compatJump = s.compatJump) ∧ State.reset.compatJump = false

/-- R102's last sentence: only `jr` and `j` can create a misaligned `pc`. -/
def Obligations.PcStaysAlignedWithoutJumps : Prop :=
  ∀ (s t : State) (w : Word), s.imem[s.pc.toNat / 4]? = some w → step s = .next t →
    (∀ rs, decode w ≠ .instr (.jr rs)) → (∀ a, decode w ≠ .instr (.j a)) → t.Aligned

/-- R39: the count after reset. That data memory is in its canonical form is no rule of the spec: that form is the
model's choice (log entry 4, DESIGN CHOICE). -/
def Obligations.InvariantAtPowerOnAndReset : Prop :=
  State.reset.Inv ∧ ∀ s : State, s.resetOp.Inv

/-- R39: the bound on the count is preserved by every step. That the canonical form of data memory is kept too is no
rule of the spec: that form is the model's choice (log entry 4, DESIGN CHOICE). -/
def Obligations.StepKeepsInvariant : Prop :=
  ∀ s t : State, s.Inv → step s = .next t → t.Inv

/-- R39: the bound on the count is preserved by every host operation. That the canonical form of data memory is kept
too is no rule of the spec: that form is the model's choice (log entry 4, DESIGN CHOICE). -/
def Obligations.HostOperationsKeepInvariant : Prop :=
  (∀ (s : State) (op : HostOp), s.Inv → (s.hostOp op).2.Inv) ∧
  ∀ (y : System) (moves : List Move), y.state.Inv → (y.session moves).state.Inv

/-- R192: the power-on state is the state after reset with the flag off. That power-on equals reset is the spec's own
decision D9. -/
def Obligations.PowerOnState : Prop :=
  (∀ r, State.reset.reg r = 0) ∧ (∀ a, State.reset.dword a = 0) ∧ State.reset.pc = 0 ∧ State.reset.imemCount = 0 ∧
  State.reset.compatJump = false ∧ { State.reset.resetOp with compatJump := false } = State.reset

/-- R190: what the reset operation does, element by element. That the slots become absent and the flag stays are the
spec's own decisions D10 and D8; that the history of reports stays is the model's choice (log entry 2). -/
def Obligations.ResetZeroesAllButFlag : Prop :=
  ∀ s : State, (∀ r, s.resetOp.reg r = 0) ∧ (∀ a, s.resetOp.dword a = 0) ∧ s.resetOp.imemCount = 0 ∧
    (∀ k : Nat, s.resetOp.imem[k]? = none) ∧ s.resetOp.pc = 0 ∧ s.resetOp.compatJump = s.compatJump ∧
    s.resetOp.reports = s.reports ∧ ∀ n, run (n + 1) s.resetOp = (s.resetOp, some .haltEnd)

/-- R194 and its testable property S10. -/
def Obligations.LoadsFillSlotsInOrder : Prop :=
  ∀ (s : State) (ws : List Word), s.Inv →
    (ws.foldl State.loadInstruction s).imem = (s.imem ++ ws).take Config.imemSlots ∧
    (ws.foldl State.loadInstruction s).reports =
      s.reports ++ (ws.drop (Config.imemSlots - s.imemCount)).map .instructionCapacityExceeded ∧
    (ws.foldl State.loadInstruction s).regs = s.regs ∧ (ws.foldl State.loadInstruction s).pc = s.pc ∧
    (ws.foldl State.loadInstruction s).dmem = s.dmem ∧ (ws.foldl State.loadInstruction s).compatJump = s.compatJump

/-- R195 and R196. -/
def Obligations.RegisterPortReadsBackWhatWasSet : Prop :=
  ∀ (s : State) (r : Reg) (v : Word),
    (s.setRegister (r.val : Int) v).reg r = v ∧ (∀ q, q ≠ r → (s.setRegister (r.val : Int) v).reg q = s.reg q) ∧
    s.setRegister (r.val : Int) v = { s with regs := (s.setRegister (r.val : Int) v).regs } ∧
    (s.setRegister (r.val : Int) v).getRegister (r.val : Int) = (some v, s.setRegister (r.val : Int) v) ∧
    s.getRegister (r.val : Int) = (some (s.reg r), s)

/-- The sentinel of a port wider than 5 bits is the spec's own decision D13, and that getDataMemory behaves as a load
is D14. -/
def Obligations.WideHostPortsSkipAndReport : Prop :=
  (∀ (s : State) (index : Int) (v : Word), index < 0 ∨ 31 < index →
    s.setRegister index v = { s with reports := s.reports ++ [.outOfRangeRegisterIndex index] } ∧
    s.getRegister index = (none, { s with reports := s.reports ++ [.outOfRangeRegisterIndex index] })) ∧
  ∀ (s : State) (a : Int), s.getDataMemory a =
    if 0 ≤ a ∧ a < (Config.dmemWords : Int) then (some (s.dword a.toNat), s)
    else (none, { s with reports := s.reports ++ [.outOfRangeMemoryAddress a] })

/-- R42 `MemRead`. -/
def Obligations.MemReadReturnsWordInRange : Prop :=
  ∀ (s : State) (a : Int), s.memRead a =
    if 0 ≤ a ∧ a < (Config.dmemWords : Int) then (some (s.dword a.toNat), s)
    else (none, { s with reports := s.reports ++ [.outOfRangeMemoryAddress a] })

/-- R43 `MemWrite`. -/
def Obligations.MemWriteReplacesOneWord : Prop :=
  (∀ (s : State) (a : Nat) (v : Word), s.Inv → a < Config.dmemWords →
    (s.memWrite a v).dword a = v ∧ (∀ b, b ≠ a → (s.memWrite a v).dword b = s.dword b) ∧
    s.memWrite a v = { s with dmem := (s.memWrite a v).dmem }) ∧
  ∀ (s : State) (a : Int) (v : Word), a < 0 ∨ (Config.dmemWords : Int) ≤ a →
    s.memWrite a v = { s with reports := s.reports ++ [.outOfRangeMemoryAddress a] }

/-- R199. -/
def Obligations.SetCompatFlagSetsOnlyTheFlag : Prop :=
  ∀ (s : State) (b : Bool), (s.hostOp (.setCompatibilityJumpOffset b)).2 = { s with compatJump := b }

/-- R81, R83, R84, R86, R88, R91: the primitives as the integers they denote. -/
def Obligations.PrimitivesComputeTheirIntegers : Prop :=
  (∀ (n : Nat) (v : BitVec n), n ≤ 32 → (sext32 v).toInt = v.toInt ∧ (zext32 v).toNat = v.toNat) ∧
  (∀ a b : Word, (bvAdd a b).toNat = (a.toNat + b.toNat) % 2 ^ 32 ∧
    (∀ i, (bvAnd a b).getLsbD i = (a.getLsbD i && b.getLsbD i))) ∧
  (∀ (n m : Nat) (a : BitVec n) (b : BitVec m), equals a b = true ↔ a.toNat = b.toNat) ∧
  ∀ (n : Nat) (k : Int), ((construct n k).toNat : Int) = k % 2 ^ n

/-- D4 and D6: on which operands a claim is independent of the two open parameters. -/
def Obligations.ParameterReadingsAgree : Prop :=
  (∀ imm16 : BitVec 16, branchOffset true imm16 = branchOffset false imm16 ↔ imm16.toNat < 0x8000) ∧
  ∀ (s : State) (t : Word), s.jumpWithin Config.imemSlots t = s.jumpWithin (4 * Config.imemSlots) t ↔
    t.toNat < 200 ∨ 800 ≤ t.toNat

/-- R6, R200: the host has no move while a run is in progress, the spec's own decision D21 (log entry 7). -/
def Obligations.HostHasNoMoveDuringARun : Prop :=
  (∀ (s : State) (op : HostOp), (System.inRun s).hostMove op = .inRun s) ∧
  (∀ (s t : State) (n : Nat), (System.between s).hostMove (.execute n) = .inRun t ↔ run n s = (t, none)) ∧
  (∀ (s t : State) (n : Nat) (ops : List HostOp), run n s = (t, none) →
    s.session (.host (.execute n) :: ops.map .host) = .inRun t) ∧
  (∀ (s t : State) (n : Nat), (System.between s).hostMove (.execute n) = .between t → t.haltStatus ≠ .running) ∧
  ∀ (s : State) (n m : Nat), ((System.between s).hostMove (.execute n)).coreMove m =
    (System.between s).hostMove (.execute (n + m))
end

