-- ==== Sys2Proof/Laws/Memory.lean ====
section
/-! SUPPORT. The laws of data memory: every operation keeps the canonical form, a read after a write of the same place
gives what was written, and a write leaves every other place alone. -/

namespace Sys2Proof.Machine

/-- A byte below every listed address reads as unlisted. -/
theorem Memory.readByte_of_below (m : Memory) (a : Nat) (h : ∀ c ∈ m, a < c.1) : m.readByte a = Memory.unlisted := by
  induction m with
  | nil => rfl
  | cons c rest ih =>
    have hc : a < c.1 := h c List.mem_cons_self
    have hne : c.1 ≠ a := by omega
    simp only [Memory.readByte, if_neg hne]
    exact ih (fun d hd => h d (List.mem_cons_of_mem c hd))

/-- Reading a cell put in front at the address read. -/
theorem Memory.readByte_consCell_same (rest : Memory) (a : Nat) (v : Byte) (h : ∀ c ∈ rest, a < c.1) :
    (Memory.consCell a v rest).readByte a = v := by
  unfold Memory.consCell
  split
  · next hv => rw [Memory.readByte_of_below rest a h, hv]
  · simp [Memory.readByte]

/-- Reading past a cell put in front. -/
theorem Memory.readByte_consCell_other (rest : Memory) (a q : Nat) (v : Byte) (h : q ≠ a) :
    (Memory.consCell a v rest).readByte q = rest.readByte q := by
  unfold Memory.consCell
  split
  · rfl
  · simp [Memory.readByte, Ne.symm h]

/-- Read after write, same byte. -/
theorem Memory.readByte_writeByte_same (m : Memory) (a : Nat) (v : Byte)
    (h : m.Pairwise (fun c d => c.1 < d.1)) : (m.writeByte a v).readByte a = v := by
  induction m with
  | nil => exact Memory.readByte_consCell_same [] a v (by simp)
  | cons c rest ih =>
    obtain ⟨b, x⟩ := c
    have hp := List.pairwise_cons.1 h
    simp only [Memory.writeByte]
    split
    · next hab =>
      refine Memory.readByte_consCell_same _ a v (fun d hd => ?_)
      rcases List.mem_cons.1 hd with rfl | hd
      · exact hab
      · exact Nat.lt_trans hab (hp.1 d hd)
    · split
      · next hab => subst hab; exact Memory.readByte_consCell_same rest a v hp.1
      · next hab =>
        have hne : b ≠ a := fun hb => hab hb.symm
        simp only [Memory.readByte, if_neg hne]
        exact ih hp.2

/-- Read after write, another byte: no premise on the form. -/
theorem Memory.readByte_writeByte_other (m : Memory) (a q : Nat) (v : Byte) (h : q ≠ a) :
    (m.writeByte a v).readByte q = m.readByte q := by
  induction m with
  | nil => exact Memory.readByte_consCell_other [] a q v h
  | cons c rest ih =>
    obtain ⟨b, x⟩ := c
    simp only [Memory.writeByte]
    split
    · exact Memory.readByte_consCell_other _ a q v h
    · split
      · next hab =>
        subst hab
        rw [Memory.readByte_consCell_other rest a q v h]
        simp [Memory.readByte, Ne.symm h]
      · simp only [Memory.readByte, ih]

/-- A cell put in front of greater addresses keeps the canonical form. -/
theorem Memory.consCell_wf (rest : Memory) (a : Nat) (v : Byte) (ha : a < 4 * Config.dmemWords) (hr : rest.wf)
    (hlow : ∀ c ∈ rest, a < c.1) : (Memory.consCell a v rest).wf := by
  unfold Memory.consCell
  split
  · exact hr
  · next hv =>
    refine ⟨List.pairwise_cons.2 ⟨hlow, hr.1⟩, fun c hc => ?_⟩
    rcases List.mem_cons.1 hc with rfl | hc
    · exact ⟨ha, hv⟩
    · exact hr.2 c hc

/-- The addresses listed after a write are the written one and earlier ones. -/
theorem Memory.mem_writeByte (m : Memory) (a : Nat) (v : Byte) (c : Host.Cell) (h : c ∈ m.writeByte a v) :
    c.1 = a ∨ c ∈ m := by
  induction m with
  | nil => simp only [Memory.writeByte, Memory.consCell] at h; split at h <;> simp_all
  | cons d rest ih =>
    obtain ⟨b, x⟩ := d
    simp only [Memory.writeByte, Memory.consCell] at h
    split at h
    · split at h
      · exact .inr h
      · rcases List.mem_cons.1 h with rfl | h
        · exact .inl rfl
        · exact .inr h
    · split at h
      · split at h
        · exact .inr (List.mem_cons_of_mem _ h)
        · rcases List.mem_cons.1 h with rfl | h
          · exact .inl rfl
          · exact .inr (List.mem_cons_of_mem _ h)
      · rcases List.mem_cons.1 h with rfl | h
        · exact .inr List.mem_cons_self
        · exact (ih h).imp id (List.mem_cons_of_mem _)

/-- Writing a byte of the address space keeps the canonical form. -/
theorem Memory.writeByte_wf (m : Memory) (a : Nat) (v : Byte) (ha : a < 4 * Config.dmemWords) (h : m.wf) :
    (m.writeByte a v).wf := by
  induction m with
  | nil => exact Memory.consCell_wf [] a v ha h (by simp)
  | cons c rest ih =>
    obtain ⟨b, x⟩ := c
    have hp := List.pairwise_cons.1 h.1
    have hr : Memory.wf rest := ⟨hp.2, fun d hd => h.2 d (List.mem_cons_of_mem _ hd)⟩
    simp only [Memory.writeByte]
    split
    · next hab =>
      refine Memory.consCell_wf _ a v ha h (fun d hd => ?_)
      rcases List.mem_cons.1 hd with rfl | hd
      · exact hab
      · exact Nat.lt_trans hab (hp.1 d hd)
    · split
      · next hab => subst hab; exact Memory.consCell_wf rest a v ha hr hp.1
      · next h1 h2 =>
        refine ⟨List.pairwise_cons.2 ⟨fun d hd => ?_, (ih hr).1⟩, fun d hd => ?_⟩
        · rcases Memory.mem_writeByte rest a v d hd with hd | hd
          · omega
          · exact hp.1 d hd
        · rcases List.mem_cons.1 hd with rfl | hd
          · exact h.2 _ List.mem_cons_self
          · exact (ih hr).2 d hd

/-- Writing a word in range keeps the canonical form. -/
theorem Memory.writeWord_wf (m : Memory) (a : Nat) (v : Word) (ha : a < Config.dmemWords) (h : m.wf) :
    (m.writeWord a v).wf := by
  unfold Memory.writeWord
  repeat' first | exact h | refine Memory.writeByte_wf _ _ _ (by omega) ?_

/-- The four bytes of a word, put together again, are the word (D15). -/
theorem bytes_of_word (v : Word) : (bits v 31 24 ++ bits v 23 16 ++ bits v 15 8 ++ bits v 7 0 : BitVec 32) = v := by
  have h : ∀ w : BitVec 32, (w.extractLsb' 24 8 ++ w.extractLsb' 16 8 ++ w.extractLsb' 8 8 ++ w.extractLsb' 0 8) = w := by
    intro w
    apply BitVec.eq_of_getLsbD_eq
    intro i hi
    simp only [BitVec.getLsbD_append, BitVec.getLsbD_extractLsb']
    split
    · next h1 => simp [h1]
    · split
      · next h1 h2 => simp [h2, show 8 + (i - 8) = i by omega]
      · split
        · next h1 h2 h3 => simp [h3, show 16 + (i - 8 - 8) = i by omega]
        · simp [show 24 + (i - 8 - 8 - 8) = i by omega, show i - 8 - 8 - 8 < 8 by omega]
  exact h v

/-- Outside the four bytes of the written word every byte reads as before. -/
theorem Memory.readByte_writeWord_other (m : Memory) (a q : Nat) (v : Word) (h : q < 4 * a ∨ 4 * a + 3 < q) :
    (m.writeWord a v).readByte q = m.readByte q := by
  unfold Memory.writeWord
  repeat rw [Memory.readByte_writeByte_other _ _ _ _ (by omega)]

/-- Read after write, another word. -/
theorem Memory.readWord_writeWord_other (m : Memory) (a q : Nat) (v : Word) (h : q ≠ a) :
    (m.writeWord a v).readWord q = m.readWord q := by
  unfold Memory.readWord
  repeat rw [Memory.readByte_writeWord_other m a _ v (by omega)]

/-- Read after write, same word. -/
theorem Memory.readWord_writeWord_same (m : Memory) (a : Nat) (v : Word) (ha : a < Config.dmemWords) (h : m.wf) :
    (m.writeWord a v).readWord a = v := by
  have w0 := Memory.writeByte_wf m (4 * a) (bits v 31 24) (by omega) h
  have w1 := Memory.writeByte_wf _ (4 * a + 1) (bits v 23 16) (by omega) w0
  have w2 := Memory.writeByte_wf _ (4 * a + 2) (bits v 15 8) (by omega) w1
  have r3 := Memory.readByte_writeByte_same _ (4 * a + 3) (bits v 7 0) w2.1
  have r2 : (m.writeWord a v).readByte (4 * a + 2) = bits v 15 8 := by
    unfold Memory.writeWord
    rw [Memory.readByte_writeByte_other _ _ _ _ (by omega)]
    exact Memory.readByte_writeByte_same _ _ _ w1.1
  have r1 : (m.writeWord a v).readByte (4 * a + 1) = bits v 23 16 := by
    unfold Memory.writeWord
    rw [Memory.readByte_writeByte_other _ _ _ _ (by omega), Memory.readByte_writeByte_other _ _ _ _ (by omega)]
    exact Memory.readByte_writeByte_same _ _ _ w0.1
  have r0 : (m.writeWord a v).readByte (4 * a) = bits v 31 24 := by
    unfold Memory.writeWord
    rw [Memory.readByte_writeByte_other _ _ _ _ (by omega), Memory.readByte_writeByte_other _ _ _ _ (by omega),
      Memory.readByte_writeByte_other _ _ _ _ (by omega)]
    exact Memory.readByte_writeByte_same _ _ _ h.1
  have r3' : (m.writeWord a v).readByte (4 * a + 3) = bits v 7 0 := r3
  unfold Memory.readWord
  rw [r0, r1, r2, r3']
  exact bytes_of_word v

/-- Every word reads zero in the empty memory (R38). -/
@[simp] theorem Memory.readWord_nil (a : Nat) : Memory.readWord [] a = 0 := by
  show ((0 : Byte) ++ (0 : Byte) ++ (0 : Byte) ++ (0 : Byte) : BitVec 32) = 0
  decide

/-- Writing the value an unlisted address reads as removes the entry. -/
theorem Memory.writeByte_unlisted (m : Memory) (a : Nat) (h : m.wf) :
    ∀ c ∈ m.writeByte a Memory.unlisted, c.1 ≠ a := by
  induction m with
  | nil => simp [Memory.writeByte, Memory.consCell]
  | cons c rest ih =>
    obtain ⟨b, x⟩ := c
    have hp := List.pairwise_cons.1 h.1
    have hr : Memory.wf rest := ⟨hp.2, fun d hd => h.2 d (List.mem_cons_of_mem _ hd)⟩
    simp only [Memory.writeByte, Memory.consCell, if_true]
    intro d hd
    split at hd
    · rcases List.mem_cons.1 hd with rfl | hd
      · simp only; omega
      · have := hp.1 d hd; omega
    · split at hd
      · have := hp.1 d hd; omega
      · rcases List.mem_cons.1 hd with rfl | hd
        · simp only; omega
        · exact ih hr d hd

end Sys2Proof.Machine
end

