-- ==== Sys2Proof/Laws/Primitives.lean ====
section
/-! SUPPORT. The datapath primitives as plain bit-vector arithmetic. -/

namespace Sys2Proof.Machine

/-- Sign extension of a word is the identity (R84). -/
@[simp] theorem sext32_word (v : Word) : sext32 v = v := by simp [sext32]

/-- On words the adder is addition modulo `2^32` (R86). -/
@[simp] theorem bvAdd_word (a b : Word) : bvAdd a b = a + b := by simp [bvAdd]

/-- Unsigned value of the sum (R86). -/
theorem bvAdd_toNat (a b : Word) : (bvAdd a b).toNat = (a.toNat + b.toNat) % 2 ^ 32 := by simp

/-- The advance adds 4 (R104). -/
@[simp] theorem construct_four : construct 32 4 = 4#32 := by decide

/-- Zero extension keeps the unsigned value (R83). -/
theorem zext32_toNat (v : BitVec 26) : (zext32 v).toNat = v.toNat := by
  simp only [zext32, BitVec.toNat_setWidth]
  exact Nat.mod_eq_of_lt (by have := v.isLt; omega)

/-- On words equality by value is equality (R91). -/
@[simp] theorem equals_word (a b : Word) : equals a b = true ↔ a = b := by
  simp only [equals, toInteger, beq_iff_eq]
  exact ⟨BitVec.eq_of_toNat_eq, congrArg _⟩

/-- The alu's `eq` output (R91, R92). -/
@[simp] theorem aluEq_iff (a b : Word) : aluEq a b = true ↔ a = b := equals_word a b

end Sys2Proof.Machine
end

