-- ==== Sys2Proof/Laws/State.lean ====
section
/-! SUPPORT. The small lemmas of the state: one per field per update, each true by rfl. -/

namespace Sys2Proof.Machine

variable (s : State) (r : Reg) (v t : Word) (e : Event) (b : Bool) (m : Memory)

/-! ### setReg -/

@[simp] theorem State.setReg_regs : (s.setReg r v).regs = s.regs.set r v := rfl
@[simp] theorem State.setReg_pc : (s.setReg r v).pc = s.pc := rfl
@[simp] theorem State.setReg_dmem : (s.setReg r v).dmem = s.dmem := rfl
@[simp] theorem State.setReg_imem : (s.setReg r v).imem = s.imem := rfl
@[simp] theorem State.setReg_compatJump : (s.setReg r v).compatJump = s.compatJump := rfl
@[simp] theorem State.setReg_reports : (s.setReg r v).reports = s.reports := rfl
@[simp] theorem State.setReg_imemCount : (s.setReg r v).imemCount = s.imemCount := rfl
@[simp] theorem State.setReg_dword (a : Nat) : (s.setReg r v).dword a = s.dword a := rfl

/-! ### setPc -/

@[simp] theorem State.setPc_regs : (s.setPc t).regs = s.regs := rfl
@[simp] theorem State.setPc_pc : (s.setPc t).pc = t := rfl
@[simp] theorem State.setPc_dmem : (s.setPc t).dmem = s.dmem := rfl
@[simp] theorem State.setPc_imem : (s.setPc t).imem = s.imem := rfl
@[simp] theorem State.setPc_compatJump : (s.setPc t).compatJump = s.compatJump := rfl
@[simp] theorem State.setPc_reports : (s.setPc t).reports = s.reports := rfl
@[simp] theorem State.setPc_imemCount : (s.setPc t).imemCount = s.imemCount := rfl
@[simp] theorem State.setPc_reg : (s.setPc t).reg r = s.reg r := rfl
@[simp] theorem State.setPc_dword (a : Nat) : (s.setPc t).dword a = s.dword a := rfl

/-! ### report -/

@[simp] theorem State.report_regs : (s.report e).regs = s.regs := rfl
@[simp] theorem State.report_pc : (s.report e).pc = s.pc := rfl
@[simp] theorem State.report_dmem : (s.report e).dmem = s.dmem := rfl
@[simp] theorem State.report_imem : (s.report e).imem = s.imem := rfl
@[simp] theorem State.report_compatJump : (s.report e).compatJump = s.compatJump := rfl
@[simp] theorem State.report_reports : (s.report e).reports = s.reports ++ [e] := rfl
@[simp] theorem State.report_imemCount : (s.report e).imemCount = s.imemCount := rfl
@[simp] theorem State.report_reg : (s.report e).reg r = s.reg r := rfl
@[simp] theorem State.report_dword (a : Nat) : (s.report e).dword a = s.dword a := rfl

/-! ### advance -/

@[simp] theorem State.advance_regs : s.advance.regs = s.regs := rfl
@[simp] theorem State.advance_pc : s.advance.pc = bvAdd s.pc (construct 32 Config.wordBytes) := rfl
@[simp] theorem State.advance_dmem : s.advance.dmem = s.dmem := rfl
@[simp] theorem State.advance_imem : s.advance.imem = s.imem := rfl
@[simp] theorem State.advance_compatJump : s.advance.compatJump = s.compatJump := rfl
@[simp] theorem State.advance_reports : s.advance.reports = s.reports := rfl
@[simp] theorem State.advance_imemCount : s.advance.imemCount = s.imemCount := rfl
@[simp] theorem State.advance_reg : s.advance.reg r = s.reg r := rfl
@[simp] theorem State.advance_dword (a : Nat) : s.advance.dword a = s.dword a := rfl

/-! ### setCompatibilityJumpOffset -/

@[simp] theorem State.setCompatibilityJumpOffset_regs : (s.setCompatibilityJumpOffset b).regs = s.regs := rfl
@[simp] theorem State.setCompatibilityJumpOffset_pc : (s.setCompatibilityJumpOffset b).pc = s.pc := rfl
@[simp] theorem State.setCompatibilityJumpOffset_dmem : (s.setCompatibilityJumpOffset b).dmem = s.dmem := rfl
@[simp] theorem State.setCompatibilityJumpOffset_imem : (s.setCompatibilityJumpOffset b).imem = s.imem := rfl
@[simp] theorem State.setCompatibilityJumpOffset_compatJump : (s.setCompatibilityJumpOffset b).compatJump = b := rfl
@[simp] theorem State.setCompatibilityJumpOffset_reports : (s.setCompatibilityJumpOffset b).reports = s.reports := rfl
@[simp] theorem State.setCompatibilityJumpOffset_imemCount : (s.setCompatibilityJumpOffset b).imemCount = s.imemCount := rfl
@[simp] theorem State.setCompatibilityJumpOffset_reg : (s.setCompatibilityJumpOffset b).reg r = s.reg r := rfl
@[simp] theorem State.setCompatibilityJumpOffset_dword (a : Nat) : (s.setCompatibilityJumpOffset b).dword a = s.dword a := rfl

/-! ### resetOp (R190) -/

@[simp] theorem State.resetOp_regs : s.resetOp.regs = State.reset.regs := rfl
@[simp] theorem State.resetOp_pc : s.resetOp.pc = 0 := rfl
@[simp] theorem State.resetOp_dmem : s.resetOp.dmem = [] := rfl
@[simp] theorem State.resetOp_imem : s.resetOp.imem = [] := rfl
@[simp] theorem State.resetOp_compatJump : s.resetOp.compatJump = s.compatJump := rfl
@[simp] theorem State.resetOp_reports : s.resetOp.reports = s.reports := rfl
@[simp] theorem State.resetOp_imemCount : s.resetOp.imemCount = 0 := rfl

/-! ### register reads after a register write (R12, R21) -/

/-- The written register reads the written word, `x[0]` like any other. -/
@[simp] theorem State.setReg_reg_same : (s.setReg r v).reg r = v := by simp [State.reg, State.setReg]

/-- Every other register reads as before. -/
theorem State.setReg_reg_other {q : Reg} (h : q ≠ r) : (s.setReg r v).reg q = s.reg q := by
  simp only [State.reg, State.setReg]
  exact Vector.getElem_set_ne _ _ (fun hv => h (Fin.ext hv.symm))

/-- Both cases at once. -/
theorem State.setReg_reg (q : Reg) : (s.setReg r v).reg q = if q = r then v else s.reg q := by
  split
  · next h => subst h; exact State.setReg_reg_same s q v
  · next h => exact State.setReg_reg_other s r v h

/-- Every register reads zero at power-on (R38). -/
@[simp] theorem State.reset_reg : State.reset.reg r = 0 := by simp [State.reg, State.reset]

/-! ### the two agents (R6, R200) -/

@[simp] theorem System.state_between : (System.between s).state = s := rfl
@[simp] theorem System.state_inRun : (System.inRun s).state = s := rfl
@[simp] theorem System.ofAnswer_state (x : HostAnswer × State) : (System.ofAnswer x).state = x.2 := by
  obtain ⟨_ | _ | ⟨_ | _⟩, _⟩ := x <;> rfl

/-- Everything a host move can do to the state: its operation, or nothing while a run is in progress. -/
theorem System.hostMove_state (op : HostOp) (y : System) :
    (y.hostMove op).state = y.state ∨ (y.hostMove op).state = (y.state.hostOp op).2 := by
  cases y with
  | between t => exact .inr (System.ofAnswer_state _)
  | inRun t => exact .inl rfl

/-- Everything a core move can do to the state: steps of the run in progress, or nothing. -/
theorem System.coreMove_state (fuel : Nat) (y : System) :
    (y.coreMove fuel).state = y.state ∨ (y.coreMove fuel).state = (run fuel y.state).1 := by
  cases y with
  | between t => exact .inl rfl
  | inRun t => exact .inr (System.ofAnswer_state _)

/-! ### the field updates of memory and instruction memory -/

@[simp] theorem State.withDmem_regs : ({ s with dmem := m } : State).regs = s.regs := rfl
@[simp] theorem State.withDmem_pc : ({ s with dmem := m } : State).pc = s.pc := rfl
@[simp] theorem State.withDmem_imem : ({ s with dmem := m } : State).imem = s.imem := rfl
@[simp] theorem State.withDmem_compatJump : ({ s with dmem := m } : State).compatJump = s.compatJump := rfl
@[simp] theorem State.withDmem_reports : ({ s with dmem := m } : State).reports = s.reports := rfl
@[simp] theorem State.withDmem_reg : ({ s with dmem := m } : State).reg r = s.reg r := rfl

end Sys2Proof.Machine
end

