-- ==== Sys2Proof/Laws/Ops.lean ====
section
/-! SUPPORT. One spec lemma for each shared operation: everything it can do, to be cited instead of unfolding it. -/

namespace Sys2Proof.Machine

/-- The advance sets `pc` to `pc + 4` and nothing else (R104). -/
@[simp] theorem State.advance_eq (s : State) : s.advance = s.setPc (s.pc + 4#32) := by
  simp [State.advance]

/-- The range test (R44). -/
@[simp] theorem inRange_iff (a : Int) : inRange a = true ↔ 0 ≤ a ∧ a < 500 := by simp [inRange]

/-- The range test of a word address (R44). -/
theorem inRange_natCast (a : Nat) : inRange (a : Int) = decide (a < Config.dmemWords) := by
  simp only [inRange, decide_eq_decide]
  omega

/-- `MemRead` of a word address (R42). -/
theorem State.memRead_natCast (s : State) (a : Nat) :
    s.memRead a = if a < Config.dmemWords then (some (s.dword a), s)
      else (none, s.report (.outOfRangeMemoryAddress a)) := by
  simp only [State.memRead, inRange_natCast, decide_eq_true_eq, Int.toNat_natCast]

/-- `MemWrite` of a word address (R43). -/
theorem State.memWrite_natCast (s : State) (a : Nat) (v : Word) :
    s.memWrite a v = if a < Config.dmemWords then { s with dmem := s.dmem.writeWord a v }
      else s.report (.outOfRangeMemoryAddress a) := by
  simp only [State.memWrite, inRange_natCast, decide_eq_true_eq, Int.toNat_natCast]

/-- Everything `MemRead` can do: a value and no change, or no value and one report (R42). -/
theorem State.memRead_cases (s : State) (a : Int) :
    (inRange a = true ∧ s.memRead a = (some (s.dword a.toNat), s)) ∨
      (inRange a = false ∧ s.memRead a = (none, s.report (.outOfRangeMemoryAddress a))) := by
  cases h : inRange a <;> simp [State.memRead, h]

/-- Everything `MemWrite` can do: one word replaced, or one report (R43). -/
theorem State.memWrite_cases (s : State) (a : Int) (v : Word) :
    (inRange a = true ∧ s.memWrite a v = { s with dmem := s.dmem.writeWord a.toNat v }) ∨
      (inRange a = false ∧ s.memWrite a v = s.report (.outOfRangeMemoryAddress a)) := by
  cases h : inRange a <;> simp [State.memWrite, h]

/-- Everything a range-checked jump can do: the new `pc`, or one report (R150, R151). -/
theorem State.jumpWithin_cases (limit : Nat) (t : Word) (s : State) :
    (t.toNat < limit ∧ s.jumpWithin limit t = s.setPc t) ∨
      (limit ≤ t.toNat ∧ s.jumpWithin limit t = s.report (.jumpTargetOutOfRange t)) := by
  by_cases h : t.toNat < limit
  · exact .inl ⟨h, by simp [State.jumpWithin, toInteger, h]⟩
  · exact .inr ⟨by omega, by simp [State.jumpWithin, toInteger, h]⟩

/-- The halt status in plain arithmetic (R111). -/
theorem State.haltStatus_eq (s : State) : s.haltStatus =
    if 200 ≤ s.pc.toNat / 4 then .haltCapacity
    else if s.pc.toNat % 4 ≠ 0 then .haltMisaligned
    else if s.imem.length ≤ s.pc.toNat / 4 then .haltEnd
    else .running := rfl

/-- What a halting step leaves alone: everything but the history (R101 to R103). -/
theorem State.absorbHalt_frame (s : State) (f : Fault) :
    s.absorbHalt f = { s with reports := (s.absorbHalt f).reports } := by
  cases f <;> rfl

/-- Everything `loadInstruction` can do: one word appended, or one report (R194). -/
theorem State.loadInstruction_cases (s : State) (w : Word) :
    (s.imemCount < Config.imemSlots ∧ s.loadInstruction w = { s with imem := s.imem ++ [w] }) ∨
      (Config.imemSlots ≤ s.imemCount ∧ s.loadInstruction w = s.report (.instructionCapacityExceeded w)) := by
  by_cases h : s.imemCount < Config.imemSlots
  · exact .inl ⟨h, by simp [State.loadInstruction, h]⟩
  · exact .inr ⟨Nat.le_of_not_lt h, by simp [State.loadInstruction, h]⟩

/-- The effective address is a sum modulo `2^32` (R41). -/
theorem State.effectiveAddress_eq (s : State) (rs : Reg) (imm16 : BitVec 16) :
    s.effectiveAddress rs imm16 = s.reg rs + imm16.signExtend 32 := by
  simp [State.effectiveAddress, immOperand, sext32]

/-- The word address (R41). -/
theorem State.wordAddress_eq (s : State) (rs : Reg) (imm16 : BitVec 16) :
    s.wordAddress rs imm16 = (s.reg rs + imm16.signExtend 32).toNat := by
  simp [State.wordAddress, State.effectiveAddress_eq, toInteger]

/-- The signed branch target (R135). -/
theorem branchTarget_signed (pc4 : Word) (imm16 : BitVec 16) :
    branchTarget true pc4 imm16 = pc4 + imm16.signExtend 32 <<< 2 := by
  simp [branchTarget, branchOffset, shiftLeft, sext32]

/-- The jump target in each mode (R150, R152). -/
theorem jumpTarget_eq (compat : Bool) (addr26 : BitVec 26) :
    jumpTarget compat addr26 = if compat then Config.jumpCompatAdjust addr26 else addr26.setWidth 32 := rfl

/-- The register a port index names (R24). -/
theorem portReg_eq (index : Int) (r : Reg) : portReg index = some r ↔ index = (r.val : Int) := by
  have hr : r.val < 32 := r.isLt
  unfold portReg
  split
  · next h => simp only [Option.some.injEq, Fin.ext_iff]; omega
  · next h => simp only [reduceCtorEq, false_iff]; intro hi; exact h ⟨by show index.toNat < 32; omega, by omega⟩

/-- No register outside 0 to 31 (R24). -/
theorem portReg_none (index : Int) : portReg index = none ↔ index < 0 ∨ 31 < index := by
  unfold portReg
  split
  · next h => simp only [reduceCtorEq, false_iff]; have := h.1; simp only [Config.nregs] at this; omega
  · next h => simp only [true_iff]; simp only [Config.nregs] at h; omega

end Sys2Proof.Machine
end

