-- ==== Sys2Proof/Laws/PerInstr.lean ====
section
/-! SUPPORT. The family of statements `EncodedRow`, made per instruction: the encoder's word of an instruction matches
that instruction's row of the opcode table (spec 30_encoding R73). -/

namespace Sys2Proof.Laws.EncodedRow

open Sys2Proof Sys2Proof.Machine

/-- The encoded word matches the instruction's own row of the opcode table. -/
def Statement (i : Instr) : Prop := i.row.holds (encode i) = true

/-- The bits of a mask that lie in the opcode and function fields decide an R-type match. -/
theorem rtype_holds (rs rt rd : Reg) (f : BitVec 6) :
    encodeRType rs rt rd f &&& 0xFC00003F#32 = f.setWidth 32 := by
  have h : ∀ a b c : BitVec 5, ((0 : BitVec 6) ++ a ++ b ++ c ++ (0 : BitVec 5) ++ f) &&& 0xFC00003F#32
      = f.setWidth 32 := by
    intro a b c
    apply BitVec.eq_of_getLsbD_eq
    intro i hi
    simp only [BitVec.getLsbD_and, BitVec.getLsbD_append, BitVec.getLsbD_setWidth]
    interval_cases i <;> simp
  exact h _ _ _

/-- The bits of a mask that lie in the opcode field decide an I-type match. -/
theorem itype_holds (op : BitVec 6) (rs rt : Reg) (imm : BitVec 16) :
    encodeIType op rs rt imm &&& 0xFC000000#32 = op.setWidth 32 <<< 26 := by
  have h : ∀ a b : BitVec 5, (op ++ a ++ b ++ imm) &&& 0xFC000000#32 = op.setWidth 32 <<< 26 := by
    intro a b
    apply BitVec.eq_of_getLsbD_eq
    intro i hi
    simp only [BitVec.getLsbD_and, BitVec.getLsbD_append, BitVec.getLsbD_setWidth, BitVec.getLsbD_shiftLeft]
    interval_cases i <;> simp
  exact h _ _

theorem add (rd rs rt : Reg) : Statement (.add rd rs rt) := by
  show (encodeRType rs rt rd 32 &&& 0xFC00003F#32 == _) = true
  rw [rtype_holds]; rfl

theorem and (rd rs rt : Reg) : Statement (.and rd rs rt) := by
  show (encodeRType rs rt rd 36 &&& 0xFC00003F#32 == _) = true
  rw [rtype_holds]; rfl

theorem jr (rs : Reg) : Statement (.jr rs) := by
  show (encodeRType rs 0 0 8 &&& 0xFC00003F#32 == _) = true
  rw [rtype_holds]; rfl

theorem j (addr26 : BitVec 26) : Statement (.j addr26) := by
  have h : ((2 : BitVec 6) ++ addr26) &&& 0xFC000000#32 = 0x08000000#32 := by
    apply BitVec.eq_of_getLsbD_eq
    intro i hi
    simp only [BitVec.getLsbD_and, BitVec.getLsbD_append]
    interval_cases i <;> simp
  exact beq_iff_eq.2 h

theorem beq (rs rt : Reg) (imm16 : BitVec 16) : Statement (.beq rs rt imm16) := by
  show (encodeIType 4 rs rt imm16 &&& 0xFC000000#32 == _) = true
  rw [itype_holds]; rfl

theorem addi (rt rs : Reg) (imm16 : BitVec 16) : Statement (.addi rt rs imm16) := by
  show (encodeIType 8 rs rt imm16 &&& 0xFC000000#32 == _) = true
  rw [itype_holds]; rfl

theorem andi (rt rs : Reg) (imm16 : BitVec 16) : Statement (.andi rt rs imm16) := by
  show (encodeIType 12 rs rt imm16 &&& 0xFC000000#32 == _) = true
  rw [itype_holds]; rfl

theorem lw (rt rs : Reg) (imm16 : BitVec 16) : Statement (.lw rt rs imm16) := by
  show (encodeIType 35 rs rt imm16 &&& 0xFC000000#32 == _) = true
  rw [itype_holds]; rfl

theorem sw (rt rs : Reg) (imm16 : BitVec 16) : Statement (.sw rt rs imm16) := by
  show (encodeIType 43 rs rt imm16 &&& 0xFC000000#32 == _) = true
  rw [itype_holds]; rfl

end Sys2Proof.Laws.EncodedRow
end

