-- ==== Sys2Proof/Laws/Step.lean ====
section
/-! SUPPORT. What the fetch, one word and one step can do, said once: the inversion lemmas from which claims about every
step are derived. -/

namespace Sys2Proof.Machine

/-- Everything the fetch can answer (R100 to R103, R107). -/
theorem fetch_cases (s : State) :
    (200 ≤ s.pc.toNat / 4 ∧ fetch s = .halted .haltCapacity) ∨
    (s.pc.toNat / 4 < 200 ∧ s.pc.toNat % 4 ≠ 0 ∧ fetch s = .halted (.haltMisaligned s.pc)) ∨
    (s.pc.toNat / 4 < 200 ∧ s.pc.toNat % 4 = 0 ∧ s.imem.length ≤ s.pc.toNat / 4 ∧ fetch s = .halted .haltEnd) ∨
    (s.pc.toNat / 4 < 200 ∧ s.pc.toNat % 4 = 0 ∧ ∃ w, s.imem[s.pc.toNat / 4]? = some w ∧ fetch s = .word w) := by
  simp only [fetch, slotIndex, toInteger, Config.imemSlots, Config.wordBytes]
  by_cases h1 : 200 ≤ s.pc.toNat / 4
  · exact .inl ⟨h1, by simp [h1]⟩
  by_cases h2 : s.pc.toNat % 4 = 0
  · cases h3 : s.imem[s.pc.toNat / 4]? with
    | none => exact .inr (.inr (.inl ⟨by omega, h2, List.getElem?_eq_none_iff.1 h3, by simp [h1, h2]⟩))
    | some w => exact .inr (.inr (.inr ⟨by omega, h2, w, rfl, by simp [h1, h2]⟩))
  · exact .inr (.inl ⟨by omega, h2, by simp [h1, h2]⟩)

/-- A word is run as the instruction it decodes to, or as the unknown instruction (R105, R106). -/
theorem runWord_cases (w : Word) (s : State) :
    (∃ i, decode w = .instr i ∧ runWord w s = exec i s) ∨
      ((∀ i, decode w ≠ .instr i) ∧ runWord w s = .next (s.report (.unknownOpcodeOrFunctionCode w))) := by
  cases h : decode w with
  | instr i => exact .inl ⟨i, rfl, by simp [runWord, h]⟩
  | unknownFunct f => exact .inr ⟨by simp, by simp [runWord, h, execUnknown]⟩
  | unknownOpcode o => exact .inr ⟨by simp, by simp [runWord, h, execUnknown]⟩

/-- Everything a step that executes can be (R100): a known instruction on the advanced state, or the unknown one. -/
theorem step_next_cases {s t : State} (h : step s = .next t) :
    ∃ w, fetch s = .word w ∧
      ((∃ i, decode w = .instr i ∧ exec i (s.setPc (s.pc + 4#32)) = .next t) ∨
        ((∀ i, decode w ≠ .instr i) ∧ t = (s.setPc (s.pc + 4#32)).report (.unknownOpcodeOrFunctionCode w))) := by
  unfold step at h
  cases hf : fetch s with
  | halted f => simp [hf] at h
  | word w =>
    simp only [hf, State.advance_eq] at h
    refine ⟨w, rfl, ?_⟩
    obtain ⟨i, hd, hr⟩ | ⟨hd, hr⟩ := runWord_cases w (s.setPc (s.pc + 4#32))
    · exact .inl ⟨i, hd, hr ▸ h⟩
    · rw [hr] at h
      exact .inr ⟨hd, (Host.Outcome.next.inj h).symm⟩

/-- The run unfolds at its first step: a halt. -/
theorem run_of_fault {s : State} {f : Fault} (h : step s = .fault f) (n : Nat) :
    run (n + 1) s = (s.absorbHalt f, some f.status) := by
  simp [run, h]

/-- The run unfolds at its first step: an executed instruction. -/
theorem run_of_next {s t : State} (h : step s = .next t) (n : Nat) : run (n + 1) s = run n t := by
  simp [run, h]

end Sys2Proof.Machine
end

