-- ==== Sys2Proof/Tests/Slice0.lean ====
section
/-! SUPPORT. Tests and witnesses. Expected values are the spec's own vectors (spec/95_test_vectors.md, named in each
comment) or worked by hand from the rule named. Witnesses show that the hypotheses of a statement can be met. -/

namespace Sys2Proof.Tests

open Sys2Proof Sys2Proof.Machine

/-! ### Small states -/

/-- A power-on state at `pc` with some registers set and the word `w` in the slot fetched next. -/
def placed (pc : Word) (xs : List (Reg × Word)) (w : Nat) : State :=
  (xs.foldl (fun s x => s.setReg x.1 x.2) (State.reset.setPc pc)).withFetchWord 32 w

/-- The state after one step, if the step completes. -/
def after (s : State) : Option State :=
  match step s with
  | .next t => some t
  | .fault _ => none
  | .refused _ => none

/-- The halt of one step, if it halts. -/
def haltOf (s : State) : Option Fault :=
  match step s with
  | .next _ => none
  | .fault f => some f
  | .refused _ => none

/-- The outcome is a next state. -/
def isNext : Host.Outcome State Fault Refusal → Bool
  | .next _ => true
  | .fault _ => false
  | .refused _ => false

theorem exists_next {o : Host.Outcome State Fault Refusal} (h : isNext o = true) : ∃ t, o = .next t := by
  cases o with
  | next t => exact ⟨t, rfl⟩
  | fault f => cases h
  | refused r => cases h

/-- A state with `n` loaded zero words at `pc`. -/
def loaded (pc : Word) (n : Nat) : State := { State.reset with pc := pc, imem := List.replicate n 0 }

/-! ### WellFormed: an ill-formed input for each check, refused (R75, R194) -/

theorem test_wellformed_register_32_refused : Reg.ofNat? 32 = none ∧ Reg.ofNat? 31 = some 31 := by decide
theorem test_wellformed_imm_high_refused : imm16OfInt? 32768 = none ∧ imm16OfInt? 32767 = some 0x7FFF := by decide
theorem test_wellformed_imm_low_refused : imm16OfInt? (-32769) = none ∧ imm16OfInt? (-4) = some 0xFFFC := by decide
theorem test_wellformed_target_refused : addr26OfNat? (2 ^ 26) = none ∧ addr26OfNat? (2 ^ 26 - 1) = some 0x3FFFFFF := by
  decide
set_option maxRecDepth 4000 in
theorem test_wellformed_program_201_refused :
    programFits (List.replicate 201 0) = false ∧ programFits (List.replicate 200 0) = true := by decide

/-! ### Decoding: each constructor from a word written out bit by bit from its encoding -/

-- R120: opcode 000000, rs 00001, rt 00010, rd 00011, unread 11111, funct 100000.
theorem test_decode_add : decode 0b00000000001000100001111111100000 = .instr (.add 3 1 2) := by decide
-- R121: opcode 000000, rs 00000, rt 00001, rd 00010, unread 00000, funct 100100 (S6).
theorem test_decode_and : decode 0b00000000000000010001000000100100 = .instr (.and 2 0 1) := by decide
-- R122: opcode 000000, rs 00001, bits 20:6 all ones, funct 001000 (R10).
theorem test_decode_jr : decode 0b00000000001111111111111111001000 = .instr (.jr 1) := by decide
-- R150: opcode 000010, addr26 = 196 (J3).
theorem test_decode_j : decode 0b00001000000000000000000011000100 = .instr (.j 196) := by decide
-- R135: opcode 000100, rs 00001, rt 00010, imm16 = 5 (I20).
theorem test_decode_beq : decode 0b00010000001000100000000000000101 = .instr (.beq 1 2 5) := by decide
-- R131: opcode 001000, rs 00001, rt 00010, imm16 = 0x8000 (I6).
theorem test_decode_addi : decode 0b00100000001000101000000000000000 = .instr (.addi 2 1 0x8000) := by decide
-- R132: opcode 001100, rs 00100, rt 00101, imm16 = 0xFFFC (I10).
theorem test_decode_andi : decode 0b00110000100001011111111111111100 = .instr (.andi 5 4 0xFFFC) := by decide
-- R133: opcode 100011, rs 00001, rt 00010, imm16 = 0xFFFF (A20).
theorem test_decode_lw : decode 0b10001100001000101111111111111111 = .instr (.lw 2 1 0xFFFF) := by decide
-- R134: opcode 101011, rs 00001, rt 00010, imm16 = 3 (I18).
theorem test_decode_sw : decode 0b10101100001000100000000000000011 = .instr (.sw 2 1 3) := by decide
-- U1 to U8: every other word is unknown, by name.
theorem test_decode_unknown :
    decode 0x00000000 = .unknownFunct 0 ∧ decode 0x0000000F = .unknownFunct 15 ∧ decode 0x0000000C = .unknownFunct 12 ∧
    decode 0x00221822 = .unknownFunct 34 ∧ decode 0x0C000004 = .unknownOpcode 3 ∧
    decode 0x342200FF = .unknownOpcode 13 ∧ decode 0xFFFFFFFF = .unknownOpcode 63 ∧
    decode 0x04000000 = .unknownOpcode 1 := by decide
-- The words of 95_test_vectors R1, R9, J1, I1, I17, each from its assembly.
theorem test_encode_words :
    encode (.add 3 1 2) = 0x00221820 ∧ encode (.jr 31) = 0x03E00008 ∧ encode (.j 4) = 0x08000004 ∧
    encode (.addi 1 0 5) = 0x20010005 ∧ encode (.sw 1 1 0) = 0xAC210000 := by decide
-- The host's reading of a table row: match words of add and sw (opcode_table.json).
theorem test_decodeTableWord :
    decodeTableWord 32 0x00000020 = some (.add 0 0 0) ∧ decodeTableWord 32 0xAC000000 = some (.sw 0 0 0) ∧
    decodeTableWord 32 0 = none := by decide

/-! ### Primitives (95_test_vectors 2.1, S4 as corrected by 90 C1) -/

theorem test_primitives_extend :
    sext32 (0x8000 : BitVec 16) = 0xFFFF8000 ∧ sext32 (0x7FFF : BitVec 16) = 0x00007FFF ∧
    zext32 (0x3FFFFFF : BitVec 26) = 0x03FFFFFF ∧ construct 16 (-4) = 0xFFFC ∧ construct 32 4294967301 = 5 := by decide
theorem test_primitives_slice :
    slice (12 : Word) 21 24 = 0b0000 ∧ slice (12 : Word) 26 29 = 0b0011 ∧ slice (12 : Word) 28 31 = 0b1100 ∧
    slice (0x20 : Word) 26 31 = 0b100000 := by decide
theorem test_primitives_arith :
    bvAdd (0x80000000 : Word) (0xFFFFFFFF : Word) = 0x7FFFFFFF ∧ bvAnd 0x12345678 0xFFFFFF00 = 0x12345600 ∧
    equals (0x80000000 : Word) (0x80000000 : Word) = true ∧ equals (1 : Word) (0xFFFFFFFF : Word) = false ∧
    invert (0xC : Word) = 0xFFFFFFF3 ∧ isZero (0 : Word) = true := by decide

/-! ### Instructions: at most two each, one step -/

-- S5: add r0, r0, r0 with x[0] = 4 gives 8, so register 0 is ordinary.
theorem test_add_register_zero : (after (placed 0 [(0, 4)] 0x00000020)).map (fun t => (t.reg 0, t.pc)) = some (8, 4) := by
  decide
-- R4: add r1, r1, r1 with 0x80000000 wraps to 0, nothing reported.
theorem test_add_wraps :
    (after (placed 0 [(1, 0x80000000)] 0x00210820)).map (fun t => (t.reg 1, t.reports)) = some (0, []) := by decide
-- S6: and r2, r0, r1 with 7 and 5.
theorem test_and_bits : (after (placed 0 [(0, 7), (1, 5)] 0x00011024)).map (fun t => (t.reg 2, t.pc)) = some (5, 4) := by
  decide
-- R9: jr r31.
theorem test_jr_loads_pc : (after (placed 4 [(31, 16)] 0x03E00008)).map (·.pc) = some 16 := by decide
-- R11: jr to 2 completes; the next step halts misaligned.
theorem test_jr_misaligned :
    (after (placed 4 [(1, 2)] 0x00200008)).map (fun t => (t.pc, t.reports, haltOf t)) =
      some (2, [], some (.haltMisaligned 2)) := by decide
-- J4: j 199 is accepted.
theorem test_j_accepts_199 : (after (placed 0 [] 0x080000C7)).map (fun t => (t.pc, t.reports)) = some (199, []) := by
  decide
-- J5: j 200 is rejected.
theorem test_j_rejects_200 :
    (after (placed 0 [] 0x080000C8)).map (fun t => (t.pc, t.reports)) = some (4, [.jumpTargetOutOfRange 200]) := by decide
-- I21: beq not taken.
theorem test_beq_not_taken : (after (placed 8 [(1, 9), (2, 10)] 0x10220005)).map (·.pc) = some 12 := by decide
-- I23: beq r0, r0, -2 at pc 0 gives 0xFFFFFFFC.
theorem test_beq_backward_wraps : (after (placed 0 [] 0x1000FFFE)).map (·.pc) = some 0xFFFFFFFC := by decide
-- I6: addi r2, r1, -32768.
theorem test_addi_sign : (after (placed 0 [(1, 0x64)] 0x20228000)).map (·.reg 2) = some 0xFFFF8064 := by decide
-- I5: addi r2, r1, 1 with all ones wraps silently.
theorem test_addi_wraps :
    (after (placed 0 [(1, 0xFFFFFFFF)] 0x20220001)).map (fun t => (t.reg 2, t.reports)) = some (0, []) := by decide
-- I7 and I8: the mask is sign-extended.
theorem test_andi_sign_extends : (after (placed 0 [(1, 0x12345678)] 0x3022FF00)).map (·.reg 2) = some 0x12345600 := by
  decide
theorem test_andi_positive : (after (placed 0 [(1, 0x12345678)] 0x30227F00)).map (·.reg 2) = some 0x00005600 := by decide
-- I12: lw r2, 500(r0) keeps the register and reports.
theorem test_lw_out_of_range :
    (after (placed 0 [(2, 0xAA)] 0x8C0201F4)).map (fun t => (t.reg 2, t.pc, t.reports)) =
      some (0xAA, 4, [.outOfRangeMemoryAddress 500]) := by decide
-- I11 and I16: the last word; base and destination the same.
theorem test_lw_last_word :
    (after ((placed 0 [(1, 499)] 0x8C210000).memWrite 499 0xDEADBEEF)).map (fun t => (t.reg 1, t.reports)) =
      some (0xDEADBEEF, []) := by decide
-- I18: sw r2, 3(r1) stores word 103.
theorem test_sw_word_addressed :
    (after (placed 0 [(1, 0x64), (2, 0xCAFEF00D)] 0xAC220003)).map (fun t => (t.dword 103, t.dword 104, t.reg 2)) =
      some (0xCAFEF00D, 0, 0xCAFEF00D) := by decide
-- I19: sw r2, -1(r0) stores nothing and reports 4294967295.
theorem test_sw_out_of_range :
    (after (placed 0 [(2, 1)] 0xAC02FFFF)).map (fun t => (t.dmem, t.reports)) =
      some ([], [.outOfRangeMemoryAddress 4294967295]) := by decide
-- U1: the zero word at pc 8.
theorem test_unknown_zero_word :
    (after (placed 8 [(1, 0x11)] 0)).map (fun t => (t.pc, t.reg 1, t.reports)) =
      some (12, 0x11, [.unknownOpcodeOrFunctionCode 0]) := by decide

/-! ### Fetch, runs and host operations -/

-- F1 to F10.
theorem test_fetch_halts :
    haltOf (loaded 0 0) = some .haltEnd ∧ haltOf (loaded 4 1) = some .haltEnd ∧
    haltOf (loaded 800 200) = some .haltCapacity ∧ haltOf (loaded 2 1) = some (.haltMisaligned 2) ∧
    haltOf (loaded 6 1) = some (.haltMisaligned 6) ∧ haltOf (loaded 801 1) = some .haltCapacity ∧
    haltOf (loaded 0xFFFFFFFF 1) = some .haltCapacity ∧ haltOf (loaded 799 200) = some (.haltMisaligned 799) ∧
    haltOf (loaded 0xFFFFFFFC 1) = some .haltCapacity := by decide
-- F5 as a run: the report.
theorem test_run_reports_misaligned :
    ((run 1 (loaded 2 1)).1.reports, (run 1 (loaded 2 1)).2) =
      ([.misalignedProgramCounter 2], some .haltMisaligned) := by decide
-- H2, H3, H6.
theorem test_host_ports :
    (State.reset.getDataMemory 500).1 = none ∧ (State.reset.getDataMemory 499).1 = some 0 ∧
    ((State.reset.setRegister 0 4).getRegister 0).1 = some 4 ∧ (State.reset.getRegister 32).1 = none ∧
    ((State.reset.setCompatibilityJumpOffset true).resetOp).compatJump = true := by decide
-- R194: the load after the 200th is rejected and reported.
set_option maxRecDepth 4000 in
theorem test_load_capacity :
    ((loaded 0 200).loadInstruction 7).imemCount = 200 ∧
    ((loaded 0 200).loadInstruction 7).reports = [.instructionCapacityExceeded 7] ∧
    ((loaded 0 199).loadInstruction 7).imemCount = 200 := by decide
-- The other readings: J6 with the limit 800, I22 with the unsigned offset.
theorem test_other_readings :
    ((State.reset.setPc 4).jumpWithin 800 796).pc = 796 ∧ branchTarget false 16 0xFFFF = 262156 ∧
    branchTarget true 16 0xFFFF = 12 := by decide
-- D15: most-significant byte first.
theorem test_byte_layout :
    (State.reset.memWrite 1 0x11223344).dmem = [(4, 0x11), (5, 0x22), (6, 0x33), (7, 0x44)] ∧
    ((State.reset.memWrite 1 0x11223344).memWrite 1 0).dmem = [] := by decide

/-! ### Witnesses: the hypotheses of each statement that has some -/

theorem witness_JLoadsFieldBelowLimit :
    State.reset.compatJump = false ∧ (199 : BitVec 26).toNat < Config.jTargetLimit ∧
    ¬ (200 : BitVec 26).toNat < Config.jTargetLimit := by decide
theorem witness_JCompatModeUsesAdjustedTarget : (State.reset.setCompatibilityJumpOffset true).compatJump = true := by
  decide
theorem witness_LwLoadsWordInRange :
    (499 : Nat) = (BitVec.ofInt 32 ((State.reset.reg 0).toNat + (499 : BitVec 16).toInt)).toNat ∧
    (500 : Nat) = (BitVec.ofInt 32 ((State.reset.reg 0).toNat + (500 : BitVec 16).toInt)).toNat ∧
    499 < Config.dmemWords ∧ ¬ 500 < Config.dmemWords := by decide
theorem witness_SwStoresWordInRange :
    (499 : Nat) = (BitVec.ofInt 32 ((State.reset.reg 0).toNat + (499 : BitVec 16).toInt)).toNat ∧
    (500 : Nat) = (BitVec.ofInt 32 ((State.reset.reg 0).toNat + (500 : BitVec 16).toInt)).toNat ∧
    State.reset.Inv ∧ 499 < Config.dmemWords ∧ Config.dmemWords ≤ 500 := by decide
set_option maxRecDepth 4000 in
theorem witness_UnknownWordIsReportedNoOp :
    (loaded 796 200).pc.toNat / 4 < Config.imemSlots ∧ (loaded 796 200).pc.toNat % 4 = 0 ∧
    (loaded 796 200).imem[(loaded 796 200).pc.toNat / 4]? = some 0 ∧
    ((0 : Word).extractLsb' 26 6).toNat = 0 ∧ ((0 : Word).extractLsb' 0 6).toNat ∉ [8, 32, 36] ∧
    ((0x04000000 : Word).extractLsb' 26 6).toNat ∉ [0, 2, 4, 8, 12, 35, 43] := by decide
theorem witness_DecoderFollowsOpcodeMap :
    (43 : Nat) = ((0xAC02FFFF : Word).extractLsb' 26 6).toNat ∧ (63 : Nat) = ((0xAC02FFFF : Word).extractLsb' 0 6).toNat := by
  decide
theorem witness_EncodeDecodeKeepsReadBits : decode 0x003FFFC8 = .instr (.jr 1) := by decide
theorem witness_UnreadBitsDoNotMatter :
    decode 0x00221FE0 = .instr (.add 3 1 2) ∧
    (0x00221820 : Word) &&& readBits (.add 3 1 2) = 0x00221FE0 &&& readBits (.add 3 1 2) := by decide
theorem witness_OpcodeRowsDoNotOverlap :
    (Instr.add 0 0 0).row.holds 0x00221820 = true ∧ (Instr.add 3 1 2).row.holds 0x00221820 = true ∧
    (decode 0x00221820).kind = .add ∧ (decode 0).kind = .unknown := by decide
theorem witness_StepRunsDecodedInstruction :
    (placed 8 [] 0x20010005).pc.toNat / 4 < 200 ∧ (placed 8 [] 0x20010005).pc.toNat % 4 = 0 ∧
    (placed 8 [] 0x20010005).imem[(placed 8 [] 0x20010005).pc.toNat / 4]? = some 0x20010005 ∧
    decode 0x20010005 = .instr (.addi 1 0 5) := ⟨by decide, by decide, by decide, by decide⟩
theorem witness_RunEndsAtThreeHaltsUnchanged :
    Config.imemSlots ≤ (loaded 800 0).pc.toNat / 4 ∧
    (loaded 799 0).pc.toNat / 4 < Config.imemSlots ∧ (loaded 799 0).pc.toNat % 4 ≠ 0 ∧
    (loaded 796 3).pc.toNat / 4 < Config.imemSlots ∧ (loaded 796 3).pc.toNat % 4 = 0 ∧
    (loaded 796 3).imemCount ≤ (loaded 796 3).pc.toNat / 4 := by decide
theorem witness_EndedRunIgnoresMoreFuel : run 1 State.reset = (State.reset, some .haltEnd) := by decide
theorem witness_HaltedCoreStaysHalted_end :
    run 1 State.reset = (State.reset, some .haltEnd) ∧
    State.reset.pc.toNat / 4 < State.reset.imemCount + [(0x20010005 : Word)].length ∧
    State.reset.imemCount + [(0x20010005 : Word)].length ≤ Config.imemSlots := by decide
theorem witness_HaltedCoreStaysHalted_stuck :
    run 1 (loaded 800 0) = (loaded 800 0, some .haltCapacity) ∧
    run 1 (loaded 2 0) = ((loaded 2 0).report (.misalignedProgramCounter 2), some .haltMisaligned) ∧
    HostOp.execute 3 ≠ .reset := by decide
theorem witness_NextPcTable :
    State.reset.compatJump = false ∧ (∃ t, exec (.beq 0 0 0xFFFE) State.reset = .next t) ∧
    ∃ t, execUnknown 0 State.reset = .next t := ⟨rfl, ⟨_, rfl⟩, ⟨_, rfl⟩⟩
theorem witness_EachInstructionHasItsOneCondition :
    (∃ t, exec (.lw 2 0 500) State.reset = .next t) ∧ ∃ t, execUnknown 0 State.reset = .next t :=
  ⟨exists_next (by decide), ⟨_, rfl⟩⟩
theorem witness_OneEffectPerStep :
    (∃ t, step (placed 0 [] 0x20010005) = .next t ∧ t.reg 1 ≠ (placed 0 [] 0x20010005).reg 1) ∧
    ∃ t, step (placed 0 [(1, 7)] 0xAC210000) = .next t ∧ t.dword 7 ≠ (placed 0 [(1, 7)] 0xAC210000).dword 7 :=
  ⟨⟨_, rfl, by decide⟩, ⟨_, rfl, by decide⟩⟩
theorem witness_OneEffectPerStep_report :
    ∃ t, step (placed 0 [] 0) = .next t ∧ t.reports ≠ (placed 0 [] 0).reports := ⟨_, rfl, by decide⟩
theorem witness_InstructionReadsAndWritesItsRegisters :
    State.reset.setReg 5 7 = { State.reset with regs := (State.reset.setReg 5 7).regs } ∧
    (∀ r ∈ readRegs (.lw 4 2 3), (State.reset.setReg 5 7).reg r = State.reset.reg r) ∧
    writtenReg (.lw 4 2 3) = some 4 ∧ writtenReg (.lw 4 2 3) ≠ some 5 ∧
    (∃ t, exec (.lw 4 2 3) State.reset = .next t) ∧ ∃ t, exec (.lw 4 2 3) (State.reset.setReg 5 7) = .next t :=
  ⟨rfl, by decide, rfl, by decide, exists_next (by decide), exists_next (by decide)⟩
theorem witness_step_completes : ∃ t, step (placed 0 [] 0x20010005) = .next t := ⟨_, rfl⟩
theorem witness_step_halts : step State.reset = .fault .haltEnd := rfl
theorem witness_DataMemoryChangesOnlyBySw :
    (placed 0 [(1, 499)] 0xAC210000).Inv ∧ ∃ t, step (placed 0 [(1, 499)] 0xAC210000) = .next t ∧
      t.dword 499 ≠ (placed 0 [(1, 499)] 0xAC210000).dword 499 := ⟨by decide, ⟨_, rfl, by decide⟩⟩
theorem witness_StoreThenLoadReturnsValue :
    State.reset.Inv ∧ (State.reset.reg 0 + (499 : BitVec 16).signExtend 32).toNat < Config.dmemWords := by decide
theorem witness_CompatFlagIsReadByJAndSetByHostOnly :
    (∀ a, Instr.add 1 2 3 ≠ .j a) ∧ (∃ t, exec (.add 1 2 3) State.reset = .next t) ∧
    ∀ b, HostOp.reset ≠ .setCompatibilityJumpOffset b :=
  ⟨fun _ => Instr.noConfusion, ⟨_, rfl⟩, fun _ => HostOp.noConfusion⟩
theorem witness_PcStaysAlignedWithoutJumps :
    (placed 8 [] 0x10000000).imem[(placed 8 [] 0x10000000).pc.toNat / 4]? = some 0x10000000 ∧
    (∃ t, step (placed 8 [] 0x10000000) = .next t) ∧ decode 0x10000000 = .instr (.beq 0 0 0) :=
  ⟨by decide, ⟨_, rfl⟩, by decide⟩
theorem witness_StepKeepsInvariant :
    (placed 0 [(1, 7)] 0xAC210000).Inv ∧ ∃ t, step (placed 0 [(1, 7)] 0xAC210000) = .next t := ⟨by decide, ⟨_, rfl⟩⟩
set_option maxRecDepth 4000 in
theorem witness_HostOperationsKeepInvariant :
    State.reset.Inv ∧ (loaded 0 200).Inv ∧ (System.inRun State.reset).state.Inv := by decide
-- `beq r0, r0, -1` at pc 0 loops (I22), so a run of it is in progress under any fuel, and `setRegister` does nothing.
theorem witness_HostHasNoMoveDuringARun :
    run 2 (placed 0 [] 0x1000FFFF) = (placed 0 [] 0x1000FFFF, none) ∧
    (System.between State.reset).hostMove (.execute 1) = .between State.reset ∧
    (placed 0 [] 0x1000FFFF).session [.host (.execute 2), .host (.setRegister 1 7), .core 3] =
      .inRun (placed 0 [] 0x1000FFFF) := by decide
set_option maxRecDepth 4000 in
theorem witness_LoadsFillSlotsInOrder : (loaded 0 199).Inv ∧ Config.imemSlots - (loaded 0 199).imemCount = 1 := by decide
theorem witness_RegisterPortReadsBackWhatWasSet : (1 : Reg) ≠ 0 := by decide
theorem witness_WideHostPortsSkipAndReport :
    ((-1 : Int) < 0 ∨ 31 < (-1 : Int)) ∧ ((32 : Int) < 0 ∨ 31 < (32 : Int)) := by decide
theorem witness_MemWriteReplacesOneWord :
    State.reset.Inv ∧ 499 < Config.dmemWords ∧ (498 : Nat) ≠ 499 ∧ ((-1 : Int) < 0 ∨ (Config.dmemWords : Int) ≤ -1) ∧
    ((500 : Int) < 0 ∨ (Config.dmemWords : Int) ≤ 500) := by decide
theorem witness_AddWritesWrappedSum : (1 : Reg) ≠ 0 ∧ (0x00221820 : Word) &&& 0xFC00003F = 0x00000020 := by decide
theorem witness_AndWritesBitwiseAnd :
    (31 : Nat) < 32 ∧ (2 : Reg) ≠ 0 ∧ (0x00011024 : Word) &&& 0xFC00003F = 0x00000024 := by decide
theorem witness_BeqBranchesWhenEqual :
    State.reset.reg 0 = State.reset.reg 1 ∧ (State.reset.setReg 1 9).reg 0 ≠ (State.reset.setReg 1 9).reg 1 := by decide
theorem witness_AddiWritesWrappedSum : (31 : Reg) ≠ 0 ∧ (0x20010005 : Word) &&& 0xFC000000 = 0x20000000 := by decide
theorem witness_AndiMasksWithSignExtension :
    (31 : Nat) < 32 ∧ (31 : Reg) ≠ 0 ∧ (0x3085FFFC : Word) &&& 0xFC000000 = 0x30000000 := by decide
theorem witness_CoreNeverWritesInstructionMemory : ∃ t, step (placed 0 [(1, 7)] 0xAC210000) = .next t := ⟨_, rfl⟩
theorem witness_ReportHistoryNeverInfluencesAStep :
    (∃ t, step (placed 0 [] 0) = .next t) ∧ step State.reset = .fault .haltEnd := ⟨⟨_, rfl⟩, rfl⟩
theorem witness_MemReadReturnsWordInRange :
    (0 ≤ (499 : Int) ∧ (499 : Int) < Config.dmemWords) ∧ ¬ ((500 : Int) < Config.dmemWords) ∧ ¬ (0 ≤ (-1 : Int)) := by
  decide
theorem witness_PrimitivesComputeTheirIntegers : (16 : Nat) ≤ 32 ∧ (26 : Nat) ≤ 32 := by decide

end Sys2Proof.Tests
end

section
/-! PROOFS of the family 00_scope: a step always executes or halts, a run is the composition of its parts, and the two
agents take turns (R6, R111, R200). -/

namespace Sys2Proof.Machine

/-! ### One step: it executes or it halts, and the halt is the fetch's (R100, R169) -/

/-- `lw` completes whether or not its read is in range (R133, R164). -/
theorem execLw_completes (rt rs : Reg) (imm16 : BitVec 16) (s : State) : ∃ t, execLw rt rs imm16 s = .next t := by
  unfold execLw
  split
  · exact ⟨_, rfl⟩
  · exact ⟨_, rfl⟩

/-- Every instruction completes on every state: all but `lw` answer a next state outright (R169). -/
theorem exec_completes (i : Instr) (s : State) : ∃ t, exec i s = .next t := by
  cases i with
  | lw rt rs imm16 => exact execLw_completes rt rs imm16 s
  | _ => exact ⟨_, rfl⟩

/-- Every fetched word completes, known or unknown. -/
theorem runWord_completes (w : Word) (s : State) : ∃ t, runWord w s = .next t := by
  obtain ⟨i, -, hr⟩ | ⟨-, hr⟩ := runWord_cases w s
  · exact hr ▸ exec_completes i s
  · exact ⟨_, hr⟩

/-- Everything a step can answer: it halts as the fetch did, or it executes. -/
theorem step_cases (s : State) :
    (∃ f, fetch s = .halted f ∧ step s = .fault f) ∨ (∃ w t, fetch s = .word w ∧ step s = .next t) := by
  cases hf : fetch s with
  | halted f => exact .inl ⟨f, rfl, by simp only [step, hf]⟩
  | word w =>
    obtain ⟨t, ht⟩ := runWord_completes w s.advance
    exact .inr ⟨w, t, rfl, by simp only [step, hf, ht]⟩

/-- A fetch that halts names the halt status of its state (R31, R111). -/
theorem haltStatus_of_fetch_halted {s : State} {f : Fault} (h : fetch s = .halted f) : s.haltStatus = f.status := by
  rw [State.haltStatus_eq]
  obtain ⟨h1, hf⟩ | ⟨h1, h2, hf⟩ | ⟨h1, h2, h3, hf⟩ | ⟨-, -, w, -, hf⟩ := fetch_cases s <;> rw [hf] at h
  · cases h; exact if_pos h1
  · cases h; rw [if_neg (by omega), if_pos h2]; rfl
  · cases h; rw [if_neg (by omega), if_neg (by omega), if_pos h3]; rfl
  · cases h

/-- The halt status does not read the history, which is all a halting step adds to. -/
@[simp] theorem State.absorbHalt_haltStatus (s : State) (f : Fault) : (s.absorbHalt f).haltStatus = s.haltStatus := by
  rw [s.absorbHalt_frame f]
  rfl

theorem Fault.status_ne_running (f : Fault) : f.status ≠ .running := by
  cases f <;> exact HaltStatus.noConfusion

/-! ### Runs (R111) -/

/-- Fuel that is left when a run ends changes nothing. -/
theorem run_add_of_ended {n : Nat} {s t : State} {h : HaltStatus} (m : Nat) (hr : run n s = (t, some h)) :
    run (n + m) s = (t, some h) := by
  induction n generalizing s with
  | zero => cases hr
  | succ n ih =>
    rw [Nat.add_right_comm]
    obtain ⟨f, -, hs⟩ | ⟨w, u, -, hs⟩ := step_cases s
    · rw [run_of_fault hs] at hr ⊢
      exact hr
    · rw [run_of_next hs] at hr ⊢
      exact ih hr

/-- Where a run's fuel ran out, more fuel goes on from the state reached. -/
theorem run_add_of_unended {n : Nat} {s t : State} (m : Nat) (hr : run n s = (t, none)) :
    run (n + m) s = run m t := by
  induction n generalizing s with
  | zero => cases hr; rw [Nat.zero_add]
  | succ n ih =>
    rw [Nat.add_right_comm]
    obtain ⟨f, -, hs⟩ | ⟨w, u, -, hs⟩ := step_cases s
    · rw [run_of_fault hs] at hr
      cases hr
    · rw [run_of_next hs] at hr ⊢
      exact ih hr

/-- A run that ended did so at a halt of the fetch, and left what that halt leaves. -/
theorem run_ended_cases {n : Nat} {s t : State} {h : HaltStatus} (hr : run n s = (t, some h)) :
    ∃ u f, fetch u = .halted f ∧ t = u.absorbHalt f ∧ h = f.status := by
  induction n generalizing s with
  | zero => cases hr
  | succ n ih =>
    obtain ⟨f, hf, hs⟩ | ⟨w, u, -, hs⟩ := step_cases s
    · rw [run_of_fault hs] at hr
      cases hr
      exact ⟨s, f, hf, rfl, rfl⟩
    · rw [run_of_next hs] at hr
      exact ih hr

/-- A run answers the halt status of the state it ended in (R31). -/
theorem haltStatus_of_run_ended {n : Nat} {s t : State} {h : HaltStatus} (hr : run n s = (t, some h)) :
    t.haltStatus = h := by
  obtain ⟨u, f, hf, rfl, rfl⟩ := run_ended_cases hr
  rw [State.absorbHalt_haltStatus, haltStatus_of_fetch_halted hf]

/-- No run ends with `RUNNING`. -/
theorem run_ended_ne_running {n : Nat} {s t : State} {h : HaltStatus} (hr : run n s = (t, some h)) : h ≠ .running := by
  obtain ⟨u, f, -, -, rfl⟩ := run_ended_cases hr
  exact f.status_ne_running

/-! ### Whose turn it is (R6, R200, D21) -/

/-- An `execute` that ended gives the turn back to the host. -/
theorem System.hostMove_execute_of_ended {n : Nat} {s t : State} {h : HaltStatus} (hr : run n s = (t, some h)) :
    (System.between s).hostMove (.execute n) = .between t := by
  simp only [System.hostMove, State.hostOp, hr, System.ofAnswer]

/-- An `execute` whose fuel ran out leaves its run in progress. -/
theorem System.hostMove_execute_of_unended {n : Nat} {s t : State} (hr : run n s = (t, none)) :
    (System.between s).hostMove (.execute n) = .inRun t := by
  simp only [System.hostMove, State.hostOp, hr, System.ofAnswer]

/-- The core's move in a run is the rest of an `execute` from the state reached. -/
theorem System.coreMove_inRun (m : Nat) (t : State) :
    (System.inRun t).coreMove m = (System.between t).hostMove (.execute m) := rfl

/-- An `execute` reads its state and fuel only through the run. -/
theorem System.hostMove_execute_congr {n m : Nat} {s t : State} (hr : run n s = run m t) :
    (System.between s).hostMove (.execute n) = (System.between t).hostMove (.execute m) := by
  simp only [System.hostMove, State.hostOp, hr]

/-- A run is left in progress exactly when the fuel ran out. -/
theorem System.hostMove_execute_inRun_iff (s t : State) (n : Nat) :
    (System.between s).hostMove (.execute n) = .inRun t ↔ run n s = (t, none) := by
  refine ⟨fun hm => ?_, System.hostMove_execute_of_unended⟩
  rcases hr : run n s with ⟨u, _ | h⟩
  · rw [System.hostMove_execute_of_unended hr] at hm
    cases hm; rfl
  · rw [System.hostMove_execute_of_ended hr] at hm
    cases hm

/-- The turn comes back to the host exactly when the run ended. -/
theorem System.hostMove_execute_between_iff (s t : State) (n : Nat) :
    (System.between s).hostMove (.execute n) = .between t ↔ ∃ h, run n s = (t, some h) := by
  refine ⟨fun hm => ?_, fun ⟨h, hr⟩ => System.hostMove_execute_of_ended hr⟩
  rcases hr : run n s with ⟨u, _ | h⟩
  · rw [System.hostMove_execute_of_unended hr] at hm
    cases hm
  · rw [System.hostMove_execute_of_ended hr] at hm
    cases hm; exact ⟨h, rfl⟩

/-- No sequence of host operations moves a run in progress. -/
theorem System.session_host_inRun (t : State) (ops : List HostOp) :
    (System.inRun t).session (ops.map .host) = .inRun t := by
  induction ops with
  | nil => rfl
  | cons op ops ih => exact ih

/-- The core going on after an `execute` is one `execute` with the fuel of both. -/
theorem System.coreMove_hostMove_execute (s : State) (n m : Nat) :
    ((System.between s).hostMove (.execute n)).coreMove m = (System.between s).hostMove (.execute (n + m)) := by
  rcases hr : run n s with ⟨t, _ | h⟩
  · rw [System.hostMove_execute_of_unended hr, System.coreMove_inRun]
    exact (System.hostMove_execute_congr (run_add_of_unended m hr)).symm
  · rw [System.hostMove_execute_of_ended hr, System.hostMove_execute_of_ended (run_add_of_ended m hr)]
    rfl

/-! ### The statements -/

/-- Settles O22, by induction on the fuel: both runs take the same first step. -/
theorem endedRunIgnoresMoreFuel : Obligations.EndedRunIgnoresMoreFuel :=
  fun _ m _ _ _ hr => run_add_of_ended m hr

/-- Settles O47: the host's turn is read off the run's answer, and a run is the composition of its parts. -/
theorem hostHasNoMoveDuringARun : Obligations.HostHasNoMoveDuringARun := by
  refine ⟨fun s op => rfl, System.hostMove_execute_inRun_iff, fun s t n ops hr => ?_, fun s t n hm => ?_,
    System.coreMove_hostMove_execute⟩
  · calc s.session (.host (.execute n) :: ops.map .host)
        = ((System.between s).hostMove (.execute n)).session (ops.map .host) := rfl
      _ = (System.inRun t).session (ops.map .host) := by rw [System.hostMove_execute_of_unended hr]
      _ = .inRun t := System.session_host_inRun t ops
  · obtain ⟨h, hr⟩ := (System.hostMove_execute_between_iff s t n).1 hm
    rw [haltStatus_of_run_ended hr]
    exact run_ended_ne_running hr

end Sys2Proof.Machine
end

section
/-! PROOFS of the family 10_state: the one effect of each instruction, what a step and a host operation leave alone, and
the state invariant (R23, R24, R29, R32, R39). -/

namespace Sys2Proof.Machine

/-! ### The one effect of an instruction

Every instruction has at most one effect on the advanced state (R110). `instrEffect` names it, `Effect.apply` carries it
out, and `exec_eq` ties both to the model: what an instruction reads is then a claim about `instrEffect`, what it leaves
alone a claim about `Effect.apply`. -/

/-- What an instruction does to the advanced state, once what it reads is known. -/
inductive Effect where
  | nothing
  | writeReg (r : Reg) (v : Word)
  | setPc (p : Word)
  | store (a : Nat) (v : Word)
  | report (e : Event)

/-- The state an effect leaves. -/
def Effect.apply : Effect → State → State
  | .nothing, s => s
  | .writeReg r v, s => s.setReg r v
  | .setPc p, s => s.setPc p
  | .store a v, s => { s with dmem := s.dmem.writeWord a v }
  | .report e, s => s.report e

/-- The events an effect reports. -/
def Effect.events : Effect → List Event
  | .report e => [e]
  | .nothing | .writeReg .. | .setPc _ | .store .. => []

/-- The effect of each instruction on the advanced state (R120 to R152). -/
def instrEffect (i : Instr) (s : State) : Effect :=
  match i with
  | .add rd rs rt => .writeReg rd (s.reg rs + s.reg rt)
  | .and rd rs rt => .writeReg rd (s.reg rs &&& s.reg rt)
  | .jr rs => .setPc (s.reg rs)
  | .j addr26 =>
    if (jumpTarget s.compatJump addr26).toNat < Config.jTargetLimit then .setPc (jumpTarget s.compatJump addr26)
    else .report (.jumpTargetOutOfRange (jumpTarget s.compatJump addr26))
  | .beq rs rt imm16 => if s.reg rs = s.reg rt then .setPc (s.pc + imm16.signExtend 32 <<< 2) else .nothing
  | .addi rt rs imm16 => .writeReg rt (s.reg rs + imm16.signExtend 32)
  | .andi rt rs imm16 => .writeReg rt (s.reg rs &&& imm16.signExtend 32)
  | .lw rt rs imm16 =>
    if s.wordAddress rs imm16 < Config.dmemWords then .writeReg rt (s.dword (s.wordAddress rs imm16))
    else .report (.outOfRangeMemoryAddress (s.wordAddress rs imm16))
  | .sw rt rs imm16 =>
    if s.wordAddress rs imm16 < Config.dmemWords then .store (s.wordAddress rs imm16) (s.reg rt)
    else .report (.outOfRangeMemoryAddress (s.wordAddress rs imm16))

/-- The effect of a fetched word: its instruction's, or the report of the unknown instruction (R106, R108). -/
def wordEffect (w : Word) (s : State) : Effect :=
  match decode w with
  | .instr i => instrEffect i s
  | .unknownFunct _ | .unknownOpcode _ => .report (.unknownOpcodeOrFunctionCode w)

/-- An instruction runs by carrying out its effect. -/
theorem exec_eq (i : Instr) (s : State) : exec i s = .next ((instrEffect i s).apply s) := by
  cases i with
  | add rd rs rt => simp [exec, execAdd, instrEffect, Effect.apply]
  | and rd rs rt => rfl
  | jr rs => rfl
  | j addr26 =>
    obtain ⟨h, hj⟩ | ⟨h, hj⟩ := State.jumpWithin_cases Config.jTargetLimit (jumpTarget s.compatJump addr26) s
    · simp only [exec, execJ, hj, instrEffect, if_pos h, Effect.apply]
    · simp only [exec, execJ, hj, instrEffect, if_neg (Nat.not_lt.2 h), Effect.apply]
  | beq rs rt imm16 =>
    simp only [exec, execBeq, instrEffect, aluEq_iff, Config.beqOffsetSigned, branchTarget_signed]
    split <;> rfl
  | addi rt rs imm16 => simp [exec, execAddi, instrEffect, Effect.apply, immOperand, sext32]
  | andi rt rs imm16 => simp [exec, execAndi, instrEffect, Effect.apply, immOperand, sext32, bvAnd]
  | lw rt rs imm16 =>
    show execLw rt rs imm16 s = _
    unfold execLw
    rw [State.memRead_natCast]
    by_cases hr : s.wordAddress rs imm16 < Config.dmemWords
    · rw [instrEffect, if_pos hr, if_pos hr, Effect.apply]
    · rw [instrEffect, if_neg hr, if_neg hr, Effect.apply]
  | sw rt rs imm16 =>
    simp only [exec, execSw, instrEffect, State.memWrite_natCast]
    split <;> rfl

/-- A fetched word runs by carrying out its effect. -/
theorem runWord_eq (w : Word) (s : State) : runWord w s = .next ((wordEffect w s).apply s) := by
  unfold runWord wordEffect
  cases decode w with
  | instr i => exact exec_eq i s
  | unknownFunct f => rfl
  | unknownOpcode o => rfl

/-- A step completes exactly where a word is fetched, and leaves that word's effect on the advanced state (R100). -/
theorem step_next_iff {s t : State} : step s = .next t ↔
    ∃ w, fetch s = .word w ∧ (wordEffect w (s.setPc (s.pc + 4#32))).apply (s.setPc (s.pc + 4#32)) = t := by
  cases hf : fetch s with
  | halted f => simp [step, hf]
  | word w => simp [step, hf, runWord_eq]

/-- A step halts exactly where the fetch does. -/
theorem step_fault_iff {s : State} {f : Fault} : step s = .fault f ↔ fetch s = .halted f := by
  cases hf : fetch s with
  | halted g => simp [step, hf]
  | word w => simp [step, hf, runWord_eq]

/-! ### What carrying out an effect changes and reads -/

theorem Effect.events_length (e : Effect) : e.events.length ≤ 1 := by
  cases e <;> simp [Effect.events]

theorem Effect.apply_reports (e : Effect) (s : State) : (e.apply s).reports = s.reports ++ e.events := by
  cases e <;> simp [Effect.apply, Effect.events]

/-- The history is only added to. -/
theorem Effect.apply_withReports (e : Effect) (s : State) (l : List Event) :
    e.apply { s with reports := l } = { e.apply s with reports := l ++ e.events } := by
  cases e with
  | report e => rfl
  | _ => simp only [Effect.events, List.append_nil]; rfl

@[simp] theorem Effect.apply_compatJump (e : Effect) (s : State) : (e.apply s).compatJump = s.compatJump := by
  cases e <;> rfl

/-- No effect reads or writes the flag. -/
theorem Effect.apply_withCompatJump (e : Effect) (s : State) (b : Bool) :
    e.apply { s with compatJump := b } = { e.apply s with compatJump := b } := by
  cases e <;> rfl

@[simp] theorem Effect.apply_imem (e : Effect) (s : State) : (e.apply s).imem = s.imem := by
  cases e <;> rfl

/-- Outside the registers an effect does not depend on them. -/
theorem Effect.apply_withRegs (e : Effect) (s : State) (R : Vector Word Config.nregs) :
    e.apply { s with regs := R } = { e.apply s with regs := (e.apply { s with regs := R }).regs } := by
  cases e <;> rfl

/-- Only a register write changes a register, and only its own. -/
theorem Effect.apply_reg_of_ne {e : Effect} {q : Reg} (h : ∀ v, e ≠ .writeReg q v) (s : State) :
    (e.apply s).reg q = s.reg q := by
  cases e with
  | writeReg r v => exact s.setReg_reg_other r v (fun hq => h v (hq ▸ rfl))
  | _ => rfl

/-- An effect whose store, if it is one, is in range keeps the invariant. -/
theorem Effect.apply_inv {e : Effect} (he : ∀ a v, e = .store a v → a < Config.dmemWords) {s : State} (hs : s.Inv) :
    (e.apply s).Inv := by
  cases e with
  | store a v => exact ⟨hs.1, Memory.writeWord_wf s.dmem a v (he a v rfl) hs.2⟩
  | _ => exact hs

/-! ### What the effect of an instruction is, and what it depends on -/

/-- Only `sw` stores: its register at its address, which is in range (R134). -/
theorem instrEffect_store {i : Instr} {s : State} {a : Nat} {v : Word} (h : instrEffect i s = .store a v) :
    ∃ rt rs imm16, i = .sw rt rs imm16 ∧ a = s.wordAddress rs imm16 ∧ a < Config.dmemWords ∧ v = s.reg rt := by
  cases i with
  | sw rt rs imm16 =>
    simp only [instrEffect] at h
    split at h
    · next hr => cases h; exact ⟨rt, rs, imm16, rfl, rfl, hr, rfl⟩
    · cases h
  | j addr26 => simp only [instrEffect] at h; split at h <;> cases h
  | beq rs rt imm16 => simp only [instrEffect] at h; split at h <;> cases h
  | lw rt rs imm16 => simp only [instrEffect] at h; split at h <;> cases h
  | _ => cases h

/-- A store of a fetched word is in range. -/
theorem wordEffect_store_inRange {w : Word} {s : State} (a : Nat) (v : Word) (h : wordEffect w s = .store a v) :
    a < Config.dmemWords := by
  unfold wordEffect at h
  cases hd : decode w with
  | instr i =>
    rw [hd] at h
    obtain ⟨rt, rs, imm16, -, -, ha, -⟩ := instrEffect_store h
    exact ha
  | unknownFunct f => rw [hd] at h; cases h
  | unknownOpcode o => rw [hd] at h; cases h

/-- A register an instruction writes is the one R23 lists. -/
theorem writtenReg_of_instrEffect {i : Instr} {s : State} {r : Reg} {v : Word}
    (h : instrEffect i s = .writeReg r v) : writtenReg i = some r := by
  cases i with
  | j addr26 => simp only [instrEffect] at h; split at h <;> cases h
  | beq rs rt imm16 => simp only [instrEffect] at h; split at h <;> cases h
  | sw rt rs imm16 => simp only [instrEffect] at h; split at h <;> cases h
  | lw rt rs imm16 =>
    simp only [instrEffect] at h
    split at h
    · cases h; rfl
    · cases h
  | _ => cases h <;> rfl

/-- The registers an effect depends on are those R23 lists as read. -/
theorem instrEffect_withRegs {i : Instr} {s : State} {R : Vector Word Config.nregs}
    (h : ∀ r ∈ readRegs i, ({ s with regs := R } : State).reg r = s.reg r) :
    instrEffect i { s with regs := R } = instrEffect i s := by
  cases i with
  | j addr26 => rfl
  | lw rt rs imm16 =>
    have ha : ({ s with regs := R } : State).wordAddress rs imm16 = s.wordAddress rs imm16 := by
      simp only [State.wordAddress_eq, h rs (by simp [readRegs])]
    simp only [instrEffect, ha]; rfl
  | sw rt rs imm16 =>
    have ha : ({ s with regs := R } : State).wordAddress rs imm16 = s.wordAddress rs imm16 := by
      simp only [State.wordAddress_eq, h rs (by simp [readRegs])]
    simp only [instrEffect, ha, h rt (by simp [readRegs])]
  | add _ rs rt | and _ rs rt | beq rs rt _ =>
    simp only [instrEffect, h rs (by simp [readRegs]), h rt (by simp [readRegs])]
  | jr rs | addi _ rs _ | andi _ rs _ => simp only [instrEffect, h rs (by simp [readRegs])]

/-- No effect depends on the history. -/
theorem instrEffect_withReports (i : Instr) (s : State) (l : List Event) :
    instrEffect i { s with reports := l } = instrEffect i s := by
  cases i <;> rfl

theorem wordEffect_withReports (w : Word) (s : State) (l : List Event) :
    wordEffect w { s with reports := l } = wordEffect w s := by
  simp only [wordEffect, instrEffect_withReports]

/-- Only the effect of `j` depends on the flag. -/
theorem instrEffect_withCompatJump {i : Instr} (hj : ∀ a, i ≠ .j a) (s : State) (b : Bool) :
    instrEffect i { s with compatJump := b } = instrEffect i s := by
  cases i with
  | j addr26 => exact absurd rfl (hj addr26)
  | _ => rfl

/-! ### Runs and host operations -/

/-- What every step and every halt keep, a run keeps. -/
theorem run_preserves {P : State → Prop} (hstep : ∀ s t, P s → step s = .next t → P t)
    (hhalt : ∀ s f, P s → P (s.absorbHalt f)) (n : Nat) {s : State} (hs : P s) : P (run n s).1 := by
  induction n generalizing s with
  | zero => exact hs
  | succ n ih =>
    obtain ⟨f, -, h⟩ | ⟨w, t, -, h⟩ := step_cases s
    · rw [run_of_fault h]; exact hhalt s f hs
    · rw [run_of_next h]; exact ih (hstep s t hs h)

/-- The range test of a data-memory access, on every integer (R42). -/
theorem State.memRead_eq (s : State) (a : Int) : s.memRead a =
    if 0 ≤ a ∧ a < (Config.dmemWords : Int) then (some (s.dword a.toNat), s)
    else (none, s.report (.outOfRangeMemoryAddress a)) := by
  simp only [State.memRead, inRange, decide_eq_true_eq]

/-- A register write with an index outside 0 to 31 is only reported (R24, D13). -/
theorem State.setRegister_of_outOfRange {index : Int} (h : index < 0 ∨ 31 < index) (s : State) (v : Word) :
    s.setRegister index v = s.report (.outOfRangeRegisterIndex index) := by
  simp only [State.setRegister, (portReg_none index).2 h]

/-- A register read with an index outside 0 to 31 has no value and is reported (R24, D13). -/
theorem State.getRegister_of_outOfRange {index : Int} (h : index < 0 ∨ 31 < index) (s : State) :
    s.getRegister index = (none, s.report (.outOfRangeRegisterIndex index)) := by
  simp only [State.getRegister, (portReg_none index).2 h]

/-- `setRegister` changes nothing but registers and the history (R195). -/
theorem State.setRegister_frame (s : State) (index : Int) (v : Word) : s.setRegister index v =
    { s with regs := (s.setRegister index v).regs, reports := (s.setRegister index v).reports } := by
  unfold State.setRegister
  split <;> rfl

/-- `getRegister` changes nothing but the history (R196). -/
theorem State.getRegister_frame (s : State) (index : Int) : (s.getRegister index).2 =
    { s with reports := (s.getRegister index).2.reports } := by
  unfold State.getRegister
  split <;> rfl

/-- `getDataMemory` changes nothing but the history (R59). -/
theorem State.getDataMemory_frame (s : State) (address : Int) : (s.getDataMemory address).2 =
    { s with reports := (s.getDataMemory address).2.reports } := by
  obtain ⟨-, h⟩ | ⟨-, h⟩ := s.memRead_cases address
  · rw [State.getDataMemory, h]
  · rw [State.getDataMemory, h]; rfl

/-! ### The compatibility flag (R29) -/

theorem step_compatJump {s t : State} (h : step s = .next t) : t.compatJump = s.compatJump := by
  obtain ⟨w, -, rfl⟩ := step_next_iff.1 h
  exact Effect.apply_compatJump _ _

theorem run_compatJump (n : Nat) (s : State) : (run n s).1.compatJump = s.compatJump :=
  run_preserves (P := fun t => t.compatJump = s.compatJump) (fun _ _ ht h => (step_compatJump h).trans ht)
    (fun t f ht => (congrArg State.compatJump (t.absorbHalt_frame f)).trans ht) n rfl

/-- Every host operation but its own leaves the flag alone. -/
theorem State.hostOp_compatJump {op : HostOp} (hop : ∀ b, op ≠ .setCompatibilityJumpOffset b) (s : State) :
    (s.hostOp op).2.compatJump = s.compatJump := by
  cases op with
  | reset => rfl
  | loadInstruction w =>
    show (s.loadInstruction w).compatJump = _
    obtain ⟨-, h⟩ | ⟨-, h⟩ := s.loadInstruction_cases w
    · rw [h]
    · rw [h, State.report_compatJump]
  | setRegister index w => show (s.setRegister index w).compatJump = _; rw [s.setRegister_frame]
  | getRegister index => show (s.getRegister index).2.compatJump = _; rw [s.getRegister_frame]
  | getDataMemory address => show (s.getDataMemory address).2.compatJump = _; rw [s.getDataMemory_frame]
  | getProgramCounter => rfl
  | setCompatibilityJumpOffset b => exact absurd rfl (hop b)
  | execute fuel => exact run_compatJump fuel s

/-! ### The state invariant (R39, log entry 4) -/

/-- The empty memory is in canonical form. -/
theorem Memory.wf_nil : Memory.wf [] := ⟨List.Pairwise.nil, fun _ hc => nomatch hc⟩

theorem State.resetOp_inv (s : State) : s.resetOp.Inv := ⟨Nat.zero_le _, Memory.wf_nil⟩

theorem step_inv {s t : State} (hs : s.Inv) (h : step s = .next t) : t.Inv := by
  obtain ⟨w, -, rfl⟩ := step_next_iff.1 h
  exact Effect.apply_inv wordEffect_store_inRange hs

theorem State.absorbHalt_inv {s : State} (hs : s.Inv) (f : Fault) : (s.absorbHalt f).Inv := by
  rw [s.absorbHalt_frame f]; exact hs

theorem run_inv (n : Nat) {s : State} (hs : s.Inv) : (run n s).1.Inv :=
  run_preserves (fun _ _ => step_inv) (fun _ f hs => State.absorbHalt_inv hs f) n hs

/-- A word is loaded only where a slot is free. -/
theorem State.loadInstruction_inv {s : State} (hs : s.Inv) (w : Word) : (s.loadInstruction w).Inv := by
  obtain ⟨hfree, h⟩ | ⟨-, h⟩ := s.loadInstruction_cases w <;> rw [h]
  · refine ⟨?_, hs.2⟩
    calc (s.imem ++ [w]).length = s.imemCount + 1 := List.length_append
      _ ≤ Config.imemSlots := hfree
  · exact hs

theorem State.hostOp_inv {s : State} (hs : s.Inv) (op : HostOp) : (s.hostOp op).2.Inv := by
  cases op with
  | reset => exact s.resetOp_inv
  | loadInstruction w => exact State.loadInstruction_inv hs w
  | setRegister index w => show (s.setRegister index w).Inv; rw [s.setRegister_frame]; exact hs
  | getRegister index => show (s.getRegister index).2.Inv; rw [s.getRegister_frame]; exact hs
  | getDataMemory address => show (s.getDataMemory address).2.Inv; rw [s.getDataMemory_frame]; exact hs
  | getProgramCounter => exact hs
  | setCompatibilityJumpOffset b => exact hs
  | execute fuel => exact run_inv fuel hs

/-- A move of either agent keeps the invariant, whoever's turn it is. -/
theorem System.move_inv {y : System} (hy : y.state.Inv) (m : Move) : (y.move m).state.Inv := by
  cases m with
  | host op =>
    obtain h | h := y.hostMove_state op <;> simp only [System.move, h]
    · exact hy
    · exact State.hostOp_inv hy op
  | core fuel =>
    obtain h | h := y.coreMove_state fuel <;> simp only [System.move, h]
    · exact hy
    · exact run_inv fuel hy

theorem System.session_inv {y : System} (hy : y.state.Inv) (moves : List Move) : (y.session moves).state.Inv := by
  induction moves generalizing y with
  | nil => exact hy
  | cons m rest ih => exact ih (System.move_inv hy m)

/-! ### The statements -/

/-- Settles O35: a step is the effect of the fetched word, whose store is in range. -/
theorem stepKeepsInvariant : Obligations.StepKeepsInvariant :=
  fun _ _ => step_inv

/-- Settles O36, by cases on the host operation and by induction on the moves. -/
theorem hostOperationsKeepInvariant : Obligations.HostOperationsKeepInvariant :=
  ⟨fun _ op hs => State.hostOp_inv hs op, fun _ moves hy => System.session_inv hy moves⟩

/-- Settles O34: nothing is loaded and data memory is empty. -/
theorem invariantAtPowerOnAndReset : Obligations.InvariantAtPowerOnAndReset :=
  ⟨⟨Nat.zero_le _, Memory.wf_nil⟩, State.resetOp_inv⟩

/-- Settles O27: the instruction has one and the same effect on both states. -/
theorem instructionReadsAndWritesItsRegisters : Obligations.InstructionReadsAndWritesItsRegisters := by
  intro i s s' t t' hs' hread ht ht'
  generalize s'.regs = R at hs'
  subst hs'
  rw [exec_eq, Host.Outcome.next.injEq] at ht ht'
  rw [instrEffect_withRegs hread] at ht'
  subst ht ht'
  refine ⟨Effect.apply_withRegs _ _ _, fun q hq => ?_, fun q _ => ?_⟩
  · have hne : ∀ v, instrEffect i s ≠ .writeReg q v := fun v h => hq (writtenReg_of_instrEffect h)
    exact ⟨Effect.apply_reg_of_ne hne _, Effect.apply_reg_of_ne hne _⟩
  · by_cases h : ∃ v, instrEffect i s = .writeReg q v
    · obtain ⟨v, hv⟩ := h
      left
      simp only [hv, Effect.apply, State.setReg_reg_same]
    · have hne : ∀ v, instrEffect i s ≠ .writeReg q v := fun v hv => h ⟨v, hv⟩
      exact .inr ⟨Effect.apply_reg_of_ne hne _, Effect.apply_reg_of_ne hne _⟩

/-- Settles O31: neither the fetch nor the effect reads the history, and the effect only adds its events to it. -/
theorem reportHistoryNeverInfluencesAStep : Obligations.ReportHistoryNeverInfluencesAStep := by
  refine fun s l => ⟨fun t h => ?_, fun f h => ?_⟩
  · obtain ⟨w, hf, rfl⟩ := step_next_iff.1 h
    refine ⟨_, Effect.events_length _, Effect.apply_reports _ _, step_next_iff.2 ⟨w, hf, ?_⟩⟩
    calc (wordEffect w { s.setPc (s.pc + 4#32) with reports := l }).apply { s.setPc (s.pc + 4#32) with reports := l }
        = (wordEffect w (s.setPc (s.pc + 4#32))).apply { s.setPc (s.pc + 4#32) with reports := l } := by
          rw [wordEffect_withReports]
      _ = _ := Effect.apply_withReports _ _ _
  · have hf : fetch s = .halted f := step_fault_iff.1 h
    exact step_fault_iff.2 hf

/-- Settles O32: the flag is read by the effect of `j` alone and kept by all but its host operation. -/
theorem compatFlagIsReadByJAndSetByHostOnly : Obligations.CompatFlagIsReadByJAndSetByHostOnly := by
  refine ⟨fun i s t b hj h => ?_, fun _ _ => step_compatJump, fun s op hop => s.hostOp_compatJump hop, rfl⟩
  rw [exec_eq, Host.Outcome.next.injEq] at h ⊢
  rw [instrEffect_withCompatJump hj, Effect.apply_withCompatJump, h]

/-- Settles O41: outside its range a port only reports. -/
theorem wideHostPortsSkipAndReport : Obligations.WideHostPortsSkipAndReport :=
  ⟨fun s _ v h => ⟨s.setRegister_of_outOfRange h v, s.getRegister_of_outOfRange h⟩, State.memRead_eq⟩

end Sys2Proof.Machine
end

section
/-! PROOFS of the family 20_memory: what a store and a load do to a data word, which instruction a changed word names,
and who writes instruction memory (R42, R43, R45, R51, R59). -/

namespace Sys2Proof.Machine

/-! ### One data word of a state (R43, R45) -/

/-- The stored word reads back, all 32 bits of it. -/
theorem State.dword_writeWord_same {s : State} (hs : s.Inv) {a : Nat} (ha : a < Config.dmemWords) (v : Word) :
    ({ s with dmem := s.dmem.writeWord a v } : State).dword a = v :=
  Memory.readWord_writeWord_same s.dmem a v ha hs.2

/-- Every other word reads as before. -/
theorem State.dword_writeWord_other (s : State) {a b : Nat} (h : b ≠ a) (v : Word) :
    ({ s with dmem := s.dmem.writeWord a v } : State).dword b = s.dword b :=
  Memory.readWord_writeWord_other s.dmem a b v h

/-- `MemWrite` of a word address in range is the store and nothing else (R43). -/
theorem State.memWrite_of_inRange (s : State) {a : Nat} (ha : a < Config.dmemWords) (v : Word) :
    s.memWrite a v = { s with dmem := s.dmem.writeWord a v } := by
  rw [s.memWrite_natCast, if_pos ha]

/-- `MemWrite` out of range is the report and nothing else, on every integer (R43, R44). -/
theorem State.memWrite_of_outOfRange (s : State) {a : Int} (ha : a < 0 ∨ (Config.dmemWords : Int) ≤ a) (v : Word) :
    s.memWrite a v = s.report (.outOfRangeMemoryAddress a) := by
  have hr : ¬ (inRange a = true) := by simp only [inRange, decide_eq_true_eq]; omega
  rw [State.memWrite, if_neg hr]

/-! ### `sw` and `lw` in range (R133, R134) -/

/-- `sw` in range stores its value register at its word address. -/
theorem exec_sw_of_inRange {rt rs : Reg} {imm16 : BitVec 16} {s : State}
    (h : s.wordAddress rs imm16 < Config.dmemWords) :
    exec (.sw rt rs imm16) s = .next { s with dmem := s.dmem.writeWord (s.wordAddress rs imm16) (s.reg rt) } := by
  rw [exec_eq, instrEffect, if_pos h, Effect.apply]

/-- `lw` in range loads the word at its word address. -/
theorem exec_lw_of_inRange {rt rs : Reg} {imm16 : BitVec 16} {s : State}
    (h : s.wordAddress rs imm16 < Config.dmemWords) :
    exec (.lw rt rs imm16) s = .next (s.setReg rt (s.dword (s.wordAddress rs imm16))) := by
  rw [exec_eq, instrEffect, if_pos h, Effect.apply]

/-! ### Which instruction a changed data word names (R59) -/

/-- Only a store changes a data word, and only its own. -/
theorem Effect.apply_dword_of_ne {e : Effect} {a : Nat} (h : ∀ v, e ≠ .store a v) (s : State) :
    (e.apply s).dword a = s.dword a := by
  cases e with
  | store b v => exact s.dword_writeWord_other (fun hab : a = b => h v (hab ▸ rfl)) v
  | _ => rfl

/-- A fetched word that stores is a `sw`, with its register at its address, which is in range (R134). -/
theorem wordEffect_store {w : Word} {s : State} {a : Nat} {v : Word} (h : wordEffect w s = .store a v) :
    ∃ rt rs imm16, decode w = .instr (.sw rt rs imm16) ∧ a = s.wordAddress rs imm16 ∧ v = s.reg rt := by
  unfold wordEffect at h
  cases hd : decode w with
  | instr i =>
    rw [hd] at h
    obtain ⟨rt, rs, imm16, rfl, ha, -, hv⟩ := instrEffect_store h
    exact ⟨rt, rs, imm16, rfl, ha, hv⟩
  | unknownFunct f => rw [hd] at h; cases h
  | unknownOpcode o => rw [hd] at h; cases h

/-- A fetched word stands in the slot that `pc` names (R50). -/
theorem imem_of_fetch_word {s : State} {w : Word} (h : fetch s = .word w) : s.imem[s.pc.toNat / 4]? = some w := by
  obtain ⟨-, hf⟩ | ⟨-, -, hf⟩ | ⟨-, -, -, hf⟩ | ⟨-, -, v, hv, hf⟩ := fetch_cases s <;> rw [hf] at h <;> cases h
  exact hv

/-! ### Instruction memory (R51) -/

theorem step_imem {s t : State} (h : step s = .next t) : t.imem = s.imem := by
  obtain ⟨w, -, rfl⟩ := step_next_iff.1 h
  exact Effect.apply_imem _ _

theorem run_imem (n : Nat) (s : State) : (run n s).1.imem = s.imem :=
  run_preserves (P := fun t => t.imem = s.imem) (fun _ _ ht h => (step_imem h).trans ht)
    (fun t f ht => (congrArg State.imem (t.absorbHalt_frame f)).trans ht) n rfl

/-- A load appends its word where a slot is free, and otherwise leaves instruction memory alone (R194). -/
theorem State.loadInstruction_imem (s : State) (w : Word) :
    (s.loadInstruction w).imem = if s.imemCount < Config.imemSlots then s.imem ++ [w] else s.imem := by
  obtain ⟨hfree, h⟩ | ⟨hfull, h⟩ := s.loadInstruction_cases w
  · rw [h, if_pos hfree]
  · rw [h, if_neg (Nat.not_lt.2 hfull), State.report_imem]

/-! ### The statements -/

/-- Settles O28: no effect of a step touches instruction memory, and each host operation does what its frame says. -/
theorem coreNeverWritesInstructionMemory : Obligations.CoreNeverWritesInstructionMemory := by
  refine ⟨fun _ _ => step_imem, run_imem, fun s op => ?_⟩
  cases op with
  | reset => rfl
  | loadInstruction w => exact s.loadInstruction_imem w
  | setRegister index w => show (s.setRegister index w).imem = s.imem; rw [s.setRegister_frame]
  | getRegister index => show (s.getRegister index).2.imem = s.imem; rw [s.getRegister_frame]
  | getDataMemory address => show (s.getDataMemory address).2.imem = s.imem; rw [s.getDataMemory_frame]
  | getProgramCounter => rfl
  | setCompatibilityJumpOffset b => rfl
  | execute fuel => exact run_imem fuel s

/-- Settles O29: a word that changed was the target of the fetched word's store, which only `sw` has. -/
theorem dataMemoryChangesOnlyBySw : Obligations.DataMemoryChangesOnlyBySw := by
  intro s t a hs hstep hne
  obtain ⟨w, hf, rfl⟩ := step_next_iff.1 hstep
  by_cases h : ∃ v, wordEffect w (s.setPc (s.pc + 4#32)) = .store a v
  · obtain ⟨v, hv⟩ := h
    have hr : a < Config.dmemWords := wordEffect_store_inRange a v hv
    obtain ⟨rt, rs, imm16, hd, ha, hval⟩ := wordEffect_store hv
    refine ⟨w, rt, rs, imm16, imem_of_fetch_word hf, hd, hr, ?_, ?_⟩
    · rw [ha, State.wordAddress_eq, State.setPc_reg]
    · rw [hv, ← State.setPc_reg s rt (s.pc + 4#32), ← hval]
      exact State.dword_writeWord_same (s := s.setPc (s.pc + 4#32)) hs hr v
  · exact absurd (Effect.apply_dword_of_ne (fun v hv => h ⟨v, hv⟩) _) hne

/-- Settles O30: the store leaves the base register, so the load reads the word just stored. -/
theorem storeThenLoadReturnsValue : Obligations.StoreThenLoadReturnsValue := by
  intro rt ru rs imm16 s hs hr
  rw [← State.wordAddress_eq] at hr
  refine ⟨_, _, exec_sw_of_inRange hr, exec_lw_of_inRange hr, ?_, rfl, rfl⟩
  rw [State.setReg_reg_same]
  exact State.dword_writeWord_same hs hr (s.reg rt)

/-- Settles O43: in range `MemWrite` is the store of one word, out of range it is the report. -/
theorem memWriteReplacesOneWord : Obligations.MemWriteReplacesOneWord := by
  refine ⟨fun s a v hs ha => ?_, fun s a v h => s.memWrite_of_outOfRange h v⟩
  rw [s.memWrite_of_inRange ha]
  exact ⟨State.dword_writeWord_same hs ha v, fun b hb => s.dword_writeWord_other hb v, rfl⟩

/-- Settles O42: the range test decides between the word and the report. -/
theorem memReadReturnsWordInRange : Obligations.MemReadReturnsWordInRange :=
  State.memRead_eq

end Sys2Proof.Machine
end

section
/-! PROOFS of the family 30_encoding: a word is its fields, an instruction's encoding is read back field by field, and
the decoder, the opcode table and the read bits agree on which words are which instruction (R61 to R63, R67, R73). -/

namespace Sys2Proof

open Sys2Proof.Machine

/-! ### A word is its fields (R61 to R63) -/

/-- Two vectors agree on a field exactly when they agree on each of its bits. -/
theorem extractLsb'_eq_iff {n : Nat} (v w : BitVec n) (lo k : Nat) :
    v.extractLsb' lo k = w.extractLsb' lo k ↔ ∀ i, lo ≤ i → i < lo + k → v.getLsbD i = w.getLsbD i := by
  constructor
  · intro h i hlo hi
    have hbit := congrArg (fun x => BitVec.getLsbD x (i - lo)) h
    simpa [show i - lo < k by omega, Nat.add_sub_cancel' hlo] using hbit
  · intro h
    ext i hi
    simpa using h (lo + i) (by omega) (by omega)

/-- A field can be compared in two parts, the `a` low bits and the `b` above them. -/
theorem extractLsb'_add_eq_iff {n : Nat} (v w : BitVec n) (lo a b : Nat) :
    v.extractLsb' lo (a + b) = w.extractLsb' lo (a + b) ↔
      v.extractLsb' (lo + a) b = w.extractLsb' (lo + a) b ∧ v.extractLsb' lo a = w.extractLsb' lo a := by
  simp only [extractLsb'_eq_iff]
  constructor
  · exact fun h => ⟨fun i hlo hi => h i (by omega) (by omega), fun i hlo hi => h i hlo (by omega)⟩
  · rintro ⟨hhigh, hlow⟩ i hlo hi
    obtain hia | hia := Nat.lt_or_ge i (lo + a)
    · exact hlow i hlo hia
    · exact hhigh i hia (by omega)

/-- A word is its two J-type fields (R63). -/
theorem eq_iff_jtype_fields (v w : Word) :
    v = w ↔ opcodeField v = opcodeField w ∧ addr26Field v = addr26Field w := by
  have h := extractLsb'_add_eq_iff v w 0 26 6
  rwa [BitVec.extractLsb'_eq_self, BitVec.extractLsb'_eq_self] at h

/-- A word is its four I-type fields (R62). -/
theorem eq_iff_itype_fields (v w : Word) : v = w ↔ opcodeField v = opcodeField w ∧
    bits v 25 21 = bits w 25 21 ∧ bits v 20 16 = bits w 20 16 ∧ imm16Field v = imm16Field w :=
  (eq_iff_jtype_fields v w).trans (and_congr_right fun _ => (extractLsb'_add_eq_iff v w 0 21 5).trans
    (and_congr_right fun _ => extractLsb'_add_eq_iff v w 0 16 5))

/-- A word is its six R-type fields (R61). -/
theorem eq_iff_rtype_fields (v w : Word) : v = w ↔ opcodeField v = opcodeField w ∧
    bits v 25 21 = bits w 25 21 ∧ bits v 20 16 = bits w 20 16 ∧
    bits v 15 11 = bits w 15 11 ∧ bits v 10 6 = bits w 10 6 ∧ functField v = functField w :=
  (eq_iff_itype_fields v w).trans (and_congr_right fun _ => and_congr_right fun _ => and_congr_right fun _ =>
    (extractLsb'_add_eq_iff v w 0 11 5).trans (and_congr_right fun _ => extractLsb'_add_eq_iff v w 0 6 5))

theorem rsField_eq_iff (w : Word) (r : Reg) : rsField w = r ↔ bits w 25 21 = BitVec.ofFin r :=
  ⟨congrArg BitVec.ofFin, congrArg BitVec.toFin⟩

theorem rtField_eq_iff (w : Word) (r : Reg) : rtField w = r ↔ bits w 20 16 = BitVec.ofFin r :=
  ⟨congrArg BitVec.ofFin, congrArg BitVec.toFin⟩

theorem rdField_eq_iff (w : Word) (r : Reg) : rdField w = r ↔ bits w 15 11 = BitVec.ofFin r :=
  ⟨congrArg BitVec.ofFin, congrArg BitVec.toFin⟩

/-! ### The fields of an encoded word -/

theorem extractLsb'_jtype_append (op : BitVec 6) (addr : BitVec 26) :
    (op ++ addr).extractLsb' 26 6 = op ∧ (op ++ addr).extractLsb' 0 26 = addr :=
  ⟨BitVec.extractLsb'_append_eq_left, BitVec.extractLsb'_append_eq_right⟩

theorem extractLsb'_itype_append (op : BitVec 6) (a b : BitVec 5) (imm : BitVec 16) :
    (op ++ a ++ b ++ imm).extractLsb' 26 6 = op ∧ (op ++ a ++ b ++ imm).extractLsb' 21 5 = a ∧
    (op ++ a ++ b ++ imm).extractLsb' 16 5 = b ∧ (op ++ a ++ b ++ imm).extractLsb' 0 16 = imm := by
  simp only [BitVec.extractLsb'_append_eq_ite]
  simp

theorem extractLsb'_rtype_append (op : BitVec 6) (a b c z : BitVec 5) (f : BitVec 6) :
    (op ++ a ++ b ++ c ++ z ++ f).extractLsb' 26 6 = op ∧ (op ++ a ++ b ++ c ++ z ++ f).extractLsb' 21 5 = a ∧
    (op ++ a ++ b ++ c ++ z ++ f).extractLsb' 16 5 = b ∧ (op ++ a ++ b ++ c ++ z ++ f).extractLsb' 11 5 = c ∧
    (op ++ a ++ b ++ c ++ z ++ f).extractLsb' 6 5 = z ∧ (op ++ a ++ b ++ c ++ z ++ f).extractLsb' 0 6 = f := by
  simp only [BitVec.extractLsb'_append_eq_ite]
  simp

theorem encode_j_fields (addr : BitVec 26) :
    opcodeField (encode (.j addr)) = 2 ∧ addr26Field (encode (.j addr)) = addr :=
  extractLsb'_jtype_append 2 addr

theorem encodeIType_fields (op : BitVec 6) (rs rt : Reg) (imm : BitVec 16) :
    opcodeField (encodeIType op rs rt imm) = op ∧ bits (encodeIType op rs rt imm) 25 21 = BitVec.ofFin rs ∧
    bits (encodeIType op rs rt imm) 20 16 = BitVec.ofFin rt ∧ imm16Field (encodeIType op rs rt imm) = imm :=
  extractLsb'_itype_append op _ _ imm

/-- The unread field of an encoded R-type word is zero (R75, D18). -/
theorem encodeRType_fields (rs rt rd : Reg) (f : BitVec 6) :
    opcodeField (encodeRType rs rt rd f) = 0 ∧ bits (encodeRType rs rt rd f) 25 21 = BitVec.ofFin rs ∧
    bits (encodeRType rs rt rd f) 20 16 = BitVec.ofFin rt ∧ bits (encodeRType rs rt rd f) 15 11 = BitVec.ofFin rd ∧
    bits (encodeRType rs rt rd f) 10 6 = 0 ∧ functField (encodeRType rs rt rd f) = f :=
  extractLsb'_rtype_append 0 _ _ _ 0 f

/-! ### The fields of a masked word (R73) -/

/-- A masked word is an R-type word exactly when each of its fields is, under that field of the mask. -/
theorem and_eq_encodeRType_iff (w m : Word) (rs rt rd : Reg) (f : BitVec 6) : w &&& m = encodeRType rs rt rd f ↔
    opcodeField w &&& opcodeField m = 0 ∧ bits w 25 21 &&& bits m 25 21 = BitVec.ofFin rs ∧
    bits w 20 16 &&& bits m 20 16 = BitVec.ofFin rt ∧ bits w 15 11 &&& bits m 15 11 = BitVec.ofFin rd ∧
    bits w 10 6 &&& bits m 10 6 = 0 ∧ functField w &&& functField m = f := by
  obtain ⟨hop, hrs, hrt, hrd, hunread, hf⟩ := encodeRType_fields rs rt rd f
  rw [eq_iff_rtype_fields, hop, hrs, hrt, hrd, hunread, hf]
  simp only [opcodeField, functField, bits, BitVec.extractLsb'_and]

/-- A masked word is an I-type word exactly when each of its fields is, under that field of the mask. -/
theorem and_eq_encodeIType_iff (w m : Word) (op : BitVec 6) (rs rt : Reg) (imm : BitVec 16) :
    w &&& m = encodeIType op rs rt imm ↔
    opcodeField w &&& opcodeField m = op ∧ bits w 25 21 &&& bits m 25 21 = BitVec.ofFin rs ∧
    bits w 20 16 &&& bits m 20 16 = BitVec.ofFin rt ∧ imm16Field w &&& imm16Field m = imm := by
  obtain ⟨hop, hrs, hrt, himm⟩ := encodeIType_fields op rs rt imm
  rw [eq_iff_itype_fields, hop, hrs, hrt, himm]
  simp only [opcodeField, imm16Field, bits, BitVec.extractLsb'_and]

theorem and_of_eq_allOnes {n : Nat} {x m : BitVec n} (h : m = BitVec.allOnes n) : x &&& m = x := by
  rw [h, BitVec.and_allOnes]

theorem and_of_eq_zero {n : Nat} {x m : BitVec n} (h : m = 0#n) : x &&& m = 0#n := by
  rw [h, BitVec.and_zero]

/-- The mask of the R-type rows keeps the opcode and the function code. -/
theorem and_rtypeRow_iff (w : Word) (f : BitVec 6) :
    w &&& 0xFC00003F#32 = encodeRType 0 0 0 f ↔ opcodeField w = 0 ∧ functField w = f := by
  rw [and_eq_encodeRType_iff]
  simp (disch := decide) [and_of_eq_allOnes, and_of_eq_zero]

/-- The mask of the other rows keeps the opcode. -/
theorem and_opcodeRow_iff (w : Word) (op : BitVec 6) :
    w &&& 0xFC000000#32 = encodeIType op 0 0 0 ↔ opcodeField w = op := by
  rw [and_eq_encodeIType_iff]
  simp (disch := decide) [and_of_eq_allOnes, and_of_eq_zero]

/-- `add` and `and` read all but `bits[10:6]`. -/
theorem and_rtypeRead_iff (w : Word) (rs rt rd : Reg) (f : BitVec 6) :
    w &&& (0xFFFFF83F : Word) = encodeRType rs rt rd f ↔
      (opcodeField w = 0 ∧ functField w = f) ∧ rdField w = rd ∧ rsField w = rs ∧ rtField w = rt := by
  rw [and_eq_encodeRType_iff, rsField_eq_iff, rtField_eq_iff, rdField_eq_iff]
  simp (disch := decide) [and_of_eq_allOnes, and_of_eq_zero, and_comm, and_left_comm, and_assoc]

/-- `jr` reads all but `bits[20:6]`. -/
theorem and_jrRead_iff (w : Word) (rs : Reg) (f : BitVec 6) : w &&& (0xFFE0003F : Word) = encodeRType rs 0 0 f ↔
    (opcodeField w = 0 ∧ functField w = f) ∧ rsField w = rs := by
  rw [and_eq_encodeRType_iff, rsField_eq_iff]
  simp (disch := decide) [and_of_eq_allOnes, and_of_eq_zero, and_comm, and_left_comm, and_assoc]

/-- An I-type instruction reads every bit. -/
theorem and_itypeRead_iff (w : Word) (op : BitVec 6) (rs rt : Reg) (imm : BitVec 16) :
    w &&& (0xFFFFFFFF : Word) = encodeIType op rs rt imm ↔
      opcodeField w = op ∧ rtField w = rt ∧ rsField w = rs ∧ imm16Field w = imm := by
  rw [and_eq_encodeIType_iff, rsField_eq_iff, rtField_eq_iff]
  simp (disch := decide) only [and_of_eq_allOnes]
  exact and_congr_right fun _ => and_left_comm

/-- `j` reads every bit. -/
theorem and_jRead_iff (w : Word) (addr : BitVec 26) :
    w &&& (0xFFFFFFFF : Word) = encode (.j addr) ↔ opcodeField w = 2 ∧ addr26Field w = addr := by
  obtain ⟨hop, haddr⟩ := encode_j_fields addr
  rw [eq_iff_jtype_fields, hop, haddr, and_of_eq_allOnes (by decide)]

/-! ### What the decoder answers (R67) -/

/-- The test by which the decoder selects a kind: the opcode, and for opcode 0 the function code. -/
def Kind.Selects : Kind → Word → Prop
  | .add, w => opcodeField w = 0 ∧ functField w = 32
  | .and, w => opcodeField w = 0 ∧ functField w = 36
  | .jr, w => opcodeField w = 0 ∧ functField w = 8
  | .j, w => opcodeField w = 2
  | .beq, w => opcodeField w = 4
  | .addi, w => opcodeField w = 8
  | .andi, w => opcodeField w = 12
  | .lw, w => opcodeField w = 35
  | .sw, w => opcodeField w = 43
  | .unknown, _ => False

/-- The instruction of the same constructor whose operands are read from a word. -/
def Instr.reread : Instr → Word → Instr
  | .add .., w => .add (rdField w) (rsField w) (rtField w)
  | .and .., w => .and (rdField w) (rsField w) (rtField w)
  | .jr .., w => .jr (rsField w)
  | .j .., w => .j (addr26Field w)
  | .beq .., w => .beq (rsField w) (rtField w) (imm16Field w)
  | .addi .., w => .addi (rtField w) (rsField w) (imm16Field w)
  | .andi .., w => .andi (rtField w) (rsField w) (imm16Field w)
  | .lw .., w => .lw (rtField w) (rsField w) (imm16Field w)
  | .sw .., w => .sw (rtField w) (rsField w) (imm16Field w)

theorem Instr.reread_kind (i : Instr) (w : Word) : (i.reread w).kind = i.kind := by
  cases i <;> rfl

theorem Instr.kind_ne_unknown (i : Instr) : i.kind ≠ .unknown := by
  cases i <;> exact Kind.noConfusion

/-- A word whose test selects an instruction's kind decodes to that instruction with the word's operands. -/
theorem decode_of_selects {i : Instr} {w : Word} (h : i.kind.Selects w) : decode w = .instr (i.reread w) := by
  cases i with
  | add | and | jr =>
    obtain ⟨hop, hf⟩ : opcodeField w = 0 ∧ functField w = _ := h
    simp [decode, decodeRType, hop, hf, Instr.reread]
  | _ =>
    have hop : opcodeField w = _ := h
    simp [decode, decodeIType, hop, Instr.reread]

/-- An instruction the decoder answers has its kind selected and its operands read from the word. -/
theorem selects_of_decode {i : Instr} {w : Word} (h : decode w = .instr i) : i.kind.Selects w ∧ i.reread w = i := by
  simp only [decode, decodeRType, decodeIType] at h
  split_ifs at h with hop hadd hand hjr hj haddi handi hlw hsw hbeq <;> cases h
  · exact ⟨⟨hop, hadd⟩, rfl⟩
  · exact ⟨⟨hop, hand⟩, rfl⟩
  · exact ⟨⟨hop, hjr⟩, rfl⟩
  · exact ⟨hj, rfl⟩
  · exact ⟨haddi, rfl⟩
  · exact ⟨handi, rfl⟩
  · exact ⟨hlw, rfl⟩
  · exact ⟨hsw, rfl⟩
  · exact ⟨hbeq, rfl⟩

theorem decode_eq_instr_iff {w : Word} {i : Instr} : decode w = .instr i ↔ i.kind.Selects w ∧ i.reread w = i :=
  ⟨selects_of_decode, fun ⟨hs, hi⟩ => (decode_of_selects hs).trans (congrArg Decoded.instr hi)⟩

theorem decode_reread {w : Word} {i : Instr} (h : decode w = .instr i) : decode w = .instr (i.reread w) :=
  decode_of_selects (selects_of_decode h).1

/-- The decoder gives an instruction's kind exactly when its test selects that kind. -/
theorem decode_kind_eq_iff (i : Instr) (w : Word) : (decode w).kind = i.kind ↔ i.kind.Selects w := by
  constructor
  · intro h
    cases hd : decode w with
    | instr i' =>
      have hk : i'.kind = i.kind := by rwa [hd] at h
      exact hk ▸ (selects_of_decode hd).1
    | unknownFunct f => rw [hd] at h; exact absurd h.symm i.kind_ne_unknown
    | unknownOpcode o => rw [hd] at h; exact absurd h.symm i.kind_ne_unknown
  · intro h
    rw [decode_of_selects h]
    exact i.reread_kind w

/-- The kind is unknown exactly when it is no instruction's. -/
theorem decode_kind_eq_unknown_iff (w : Word) :
    (decode w).kind = .unknown ↔ ∀ i : Instr, (decode w).kind ≠ i.kind := by
  refine ⟨fun h i hi => i.kind_ne_unknown (hi.symm.trans h), fun h => ?_⟩
  cases hd : decode w with
  | instr i => exact absurd (congrArg Decoded.kind hd) (h i)
  | unknownFunct f => rfl
  | unknownOpcode o => rfl

/-- The bits under a row's mask are its pattern exactly when the decoder's test selects the row's kind (R73). -/
theorem and_row_iff_selects (i : Instr) (w : Word) : w &&& i.row.mask = i.row.pattern ↔ i.kind.Selects w := by
  cases i with
  | add => exact and_rtypeRow_iff w 32
  | and => exact and_rtypeRow_iff w 36
  | jr => exact and_rtypeRow_iff w 8
  | j => exact and_opcodeRow_iff w 2
  | beq => exact and_opcodeRow_iff w 4
  | addi => exact and_opcodeRow_iff w 8
  | andi => exact and_opcodeRow_iff w 12
  | lw => exact and_opcodeRow_iff w 35
  | sw => exact and_opcodeRow_iff w 43

/-- The bits under a row's mask are its pattern exactly when the word decodes to the row's instruction, its operands
read from the word. -/
theorem and_row_iff_decode (i : Instr) (w : Word) :
    w &&& i.row.mask = i.row.pattern ↔ decode w = .instr (i.reread w) :=
  (and_row_iff_selects i w).trans ⟨decode_of_selects, fun h => i.reread_kind w ▸ (selects_of_decode h).1⟩

theorem row_holds_iff_decode_kind (i : Instr) (w : Word) : i.row.holds w = true ↔ (decode w).kind = i.kind :=
  beq_iff_eq.trans ((and_row_iff_selects i w).trans (decode_kind_eq_iff i w).symm)

/-- The bits an instruction reads, all of them and no others, decide whether a word decodes to it (R73). -/
theorem decode_eq_instr_iff_readBits (w : Word) (i : Instr) : decode w = .instr i ↔ w &&& readBits i = encode i := by
  rw [decode_eq_instr_iff]
  cases i with
  | add rd rs rt => rw [readBits, encode, and_rtypeRead_iff, ← Instr.add.injEq]; rfl
  | and rd rs rt => rw [readBits, encode, and_rtypeRead_iff, ← Instr.and.injEq]; rfl
  | jr rs => rw [readBits, encode, and_jrRead_iff, ← Instr.jr.injEq]; rfl
  | j addr => rw [readBits, and_jRead_iff, ← Instr.j.injEq]; rfl
  | beq rs rt imm16 =>
    rw [readBits, encode, and_itypeRead_iff, and_left_comm (a := rtField w = rt), ← Instr.beq.injEq]; rfl
  | addi rt rs imm16 => rw [readBits, encode, and_itypeRead_iff, ← Instr.addi.injEq]; rfl
  | andi rt rs imm16 => rw [readBits, encode, and_itypeRead_iff, ← Instr.andi.injEq]; rfl
  | lw rt rs imm16 => rw [readBits, encode, and_itypeRead_iff, ← Instr.lw.injEq]; rfl
  | sw rt rs imm16 => rw [readBits, encode, and_itypeRead_iff, ← Instr.sw.injEq]; rfl

/-- The encoder writes 0 in every bit that is not read (R75, D18). -/
theorem encode_and_readBits (i : Instr) : encode i &&& readBits i = encode i := by
  cases i with
  | add rd rs rt | and rd rs rt =>
    rw [readBits, encode, and_eq_encodeRType_iff]
    simp (disch := decide) [encodeRType_fields, and_of_eq_allOnes]
  | jr rs =>
    rw [readBits, encode, and_eq_encodeRType_iff]
    simp (disch := decide) [encodeRType_fields, and_of_eq_allOnes, and_of_eq_zero]
  | _ => exact BitVec.and_allOnes

/-- Settles O13: the encoded word is zero outside the bits read, which decide what it decodes to. -/
theorem decodeEncodeRoundTrip : Obligations.DecodeEncodeRoundTrip :=
  fun i => (decode_eq_instr_iff_readBits _ i).2 (encode_and_readBits i)

/-- Settles O14: the bits read of a word that decodes to an instruction are that instruction's encoding. -/
theorem encodeDecodeKeepsReadBits : Obligations.EncodeDecodeKeepsReadBits :=
  fun w i h => ((decode_eq_instr_iff_readBits w i).1 h).symm

/-- Settles O15: a word decodes to an instruction exactly when its bits read are the instruction's encoding, and its
bits under the row's mask say whether it is of the row's kind. -/
theorem unreadBitsDoNotMatter : Obligations.UnreadBitsDoNotMatter := by
  refine ⟨fun w w' i h => ?_, fun w => ⟨?_, ?_, ?_⟩⟩
  · rw [decode_eq_instr_iff_readBits] at h ⊢
    rw [h]
  · exact (and_row_iff_decode (.add 0 0 0) w).trans
      ⟨fun h => ⟨_, _, _, h⟩, fun ⟨_, _, _, h⟩ => (decode_reread h :)⟩
  · exact (and_row_iff_decode (.and 0 0 0) w).trans
      ⟨fun h => ⟨_, _, _, h⟩, fun ⟨_, _, _, h⟩ => (decode_reread h :)⟩
  · exact (and_row_iff_decode (.jr 0) w).trans ⟨fun h => ⟨_, h⟩, fun ⟨_, h⟩ => (decode_reread h :)⟩

/-- Settles O16: a word has one kind, and a row holds exactly for the words of its kind. -/
theorem opcodeRowsDoNotOverlap : Obligations.OpcodeRowsDoNotOverlap := by
  refine ⟨row_holds_iff_decode_kind, fun i j w hi hj => ?_, fun w => ?_⟩
  · exact ((row_holds_iff_decode_kind i w).1 hi).symm.trans ((row_holds_iff_decode_kind j w).1 hj)
  · simp only [Bool.eq_false_iff, Ne, row_holds_iff_decode_kind]
    exact decode_kind_eq_unknown_iff w

/-- Settles O12: the chain is the decoder's own, with its tests on the numbers the two fields denote. -/
theorem decoderFollowsOpcodeMap : Obligations.DecoderFollowsOpcodeMap := by
  rintro w opcode funct rfl rfl
  simp only [decode, decodeRType, decodeIType, ← BitVec.toNat_inj]
  rfl

end Sys2Proof
end

section
/-! PROOFS of the family 40_datapath_primitives: each primitive as an operation on the integers its operands denote
(R81, R83, R84, R86, R88, R91). -/

namespace Sys2Proof.Machine

/-- `construct` reduces modulo `2^n` with a nonnegative remainder, negative integers included (R81). -/
theorem construct_toNat (n : Nat) (k : Int) : ((construct n k).toNat : Int) = k % 2 ^ n := by
  have hnonneg : 0 ≤ k % (2 ^ n : Nat) := Int.emod_nonneg k (by positivity)
  rw [construct, BitVec.toNat_ofInt, Int.toNat_of_nonneg hnonneg, Nat.cast_pow, Nat.cast_ofNat]

/-- Copying the sign bit upwards keeps the signed value, at every width up to the word's (R84). -/
theorem sext32_toInt {n : Nat} (hn : n ≤ 32) (v : BitVec n) : (sext32 v).toInt = v.toInt :=
  BitVec.toInt_signExtend_of_le hn

/-- Zeros above a vector keep its unsigned value, at every width up to the word's (R83); `zext32_toNat` is the case of
`j`'s 26-bit address. -/
theorem zext32_toNat_of_le {n : Nat} (hn : n ≤ 32) (v : BitVec n) : (zext32 v).toNat = v.toNat :=
  BitVec.toNat_setWidth_of_le hn

/-- AND acts on each bit position alone (R88). -/
theorem bvAnd_getLsbD (a b : Word) (i : Nat) : (bvAnd a b).getLsbD i = (a.getLsbD i && b.getLsbD i) :=
  BitVec.getLsbD_and

/-- Equality compares the unsigned values and ignores the widths (R91, D20). -/
theorem equals_iff_toNat_eq {n m : Nat} (a : BitVec n) (b : BitVec m) : equals a b = true ↔ a.toNat = b.toNat :=
  beq_iff_eq

/-- Settles O45: each clause is the one law of its primitive. -/
theorem primitivesComputeTheirIntegers : Obligations.PrimitivesComputeTheirIntegers :=
  ⟨fun _ v hn => ⟨sext32_toInt hn v, zext32_toNat_of_le hn v⟩,
    fun a b => ⟨bvAdd_toNat a b, bvAnd_getLsbD a b⟩,
    fun _ _ => equals_iff_toNat_eq,
    construct_toNat⟩

end Sys2Proof.Machine
end

section
/-! PROOFS of the family 41_fetch_decode: when the fetch halts, what a step adds around its word, the next pc, the one
effect of a step, and a machine that has halted (R100 to R113). -/

namespace Sys2Proof.Machine

/-! ### When the fetch halts and when it answers a word (R100 to R103, R107) -/

/-- The condition of each halt; the three exclude one another (R107, D11). -/
def State.HaltsWith (s : State) : Fault → Prop
  | .haltCapacity => Config.imemSlots ≤ s.pc.toNat / 4
  | .haltMisaligned p => p = s.pc ∧ s.pc.toNat / 4 < Config.imemSlots ∧ s.pc.toNat % 4 ≠ 0
  | .haltEnd => s.pc.toNat / 4 < Config.imemSlots ∧ s.pc.toNat % 4 = 0 ∧ s.imemCount ≤ s.pc.toNat / 4

/-- The halts of capacity and alignment are decided by `pc` alone, so nothing that keeps `pc` revives them (R113). -/
theorem State.HaltsWith.of_pc_eq {s t : State} {f : Fault} (h : s.HaltsWith f) (hf : f ≠ .haltEnd) (hpc : t.pc = s.pc) :
    t.HaltsWith f := by
  cases f with
  | haltEnd => exact absurd rfl hf
  | _ => simpa only [State.HaltsWith, hpc] using h

theorem fetch_word_iff {s : State} {w : Word} : fetch s = .word w ↔
    s.pc.toNat / 4 < Config.imemSlots ∧ s.pc.toNat % 4 = 0 ∧ s.imem[s.pc.toNat / 4]? = some w := by
  obtain ⟨h1, hf⟩ | ⟨h1, h2, hf⟩ | ⟨h1, h2, h3, hf⟩ | ⟨h1, h2, v, hv, hf⟩ := fetch_cases s <;> rw [hf]
  · simp [Nat.not_lt.2 h1]
  · simp [h2]
  · simp [List.getElem?_eq_none h3]
  · simp [h1, h2, hv]

theorem fetch_halted_iff {s : State} {f : Fault} : fetch s = .halted f ↔ s.HaltsWith f := by
  constructor
  · intro h
    obtain ⟨h1, hf⟩ | ⟨h1, h2, hf⟩ | ⟨h1, h2, h3, hf⟩ | ⟨-, -, v, -, hf⟩ := fetch_cases s <;> rw [hf] at h <;> cases h
    · exact h1
    · exact ⟨rfl, h1, h2⟩
    · exact ⟨h1, h2, h3⟩
  · intro h
    cases f with
    | haltCapacity => exact if_pos h
    | haltMisaligned p =>
      obtain ⟨rfl, h1, h2⟩ := h
      exact (if_neg (Nat.not_le.2 h1)).trans (if_pos h2)
    | haltEnd =>
      obtain ⟨h1, h2, h3⟩ := h
      have habsent : s.imem[s.pc.toNat / 4]? = none := List.getElem?_eq_none h3
      simp [fetch, slotIndex, toInteger, Nat.not_le.2 h1, h2, habsent]

theorem haltStatus_of_fetch_word {s : State} {w : Word} (h : fetch s = .word w) : s.haltStatus = .running := by
  obtain ⟨h1, h2, hw⟩ := fetch_word_iff.1 h
  obtain ⟨h3, -⟩ := List.getElem?_eq_some_iff.1 hw
  rw [State.haltStatus_eq, if_neg (Nat.not_le.2 h1), if_neg (not_not.2 h2), if_neg (Nat.not_le.2 h3)]

/-! ### What a step adds around the fetched word (R104 to R106) -/

/-- A fetched word runs on the advanced state. -/
theorem step_of_fetch_word {s : State} {w : Word} (h : fetch s = .word w) :
    step s = runWord w (s.setPc (s.pc + 4#32)) := by
  simp only [step, h, State.advance_eq]

theorem runWord_of_decode {w : Word} {i : Instr} (h : decode w = .instr i) (s : State) : runWord w s = exec i s := by
  simp only [runWord, h]

theorem runWord_of_unknown {w : Word} (h : ∀ i, decode w ≠ .instr i) (s : State) :
    runWord w s = .next (s.report (.unknownOpcodeOrFunctionCode w)) := by
  obtain ⟨i, hd, -⟩ | ⟨-, hr⟩ := runWord_cases w s
  · exact absurd hd (h i)
  · exact hr

/-- The advance as an addition on the integers, which does not wrap where a fetch succeeds (R104). -/
theorem add_four_eq_ofNat (pc : Word) : pc + 4#32 = BitVec.ofNat 32 (pc.toNat + 4) := by
  apply BitVec.eq_of_toNat_eq
  rw [BitVec.toNat_add, BitVec.toNat_ofNat, BitVec.toNat_ofNat, Nat.add_mod_mod]

/-- The opcodes and function codes of the nine instructions (R68, R69). -/
theorem Kind.codes_of_selects {k : Kind} {w : Word} (h : k.Selects w) :
    ((opcodeField w).toNat = 0 ∧ (functField w).toNat ∈ [8, 32, 36]) ∨
      (opcodeField w).toNat ∈ [2, 4, 8, 12, 35, 43] := by
  cases k with
  | add | and | jr =>
    obtain ⟨hop, hfunct⟩ : opcodeField w = 0 ∧ functField w = _ := h
    rw [hop, hfunct]
    exact .inl (by decide)
  | unknown => exact h.elim
  | _ =>
    have hop : opcodeField w = _ := h
    rw [hop]
    exact .inr (by decide)

/-- A word with any other code is none of the nine instructions (R70). -/
theorem decode_ne_instr_of_codes {w : Word}
    (h : ((opcodeField w).toNat = 0 ∧ (functField w).toNat ∉ [8, 32, 36]) ∨
      (opcodeField w).toNat ∉ [0, 2, 4, 8, 12, 35, 43]) (i : Instr) : decode w ≠ .instr i := by
  intro hd
  obtain ⟨hop, hfunct⟩ | hop := Kind.codes_of_selects (selects_of_decode hd).1 <;> obtain ⟨hop', hfunct'⟩ | hop' := h
  · exact hfunct' hfunct
  · exact hop' (hop ▸ List.mem_cons_self)
  · rw [hop'] at hop
    exact absurd hop (by decide)
  · exact hop' (List.mem_cons_of_mem 0 hop)

/-! ### The next pc (R109, R102) -/

/-- The table of R109, in both modes of `j`; `s.pc` is `pc4`. -/
def nextPc (i : Instr) (s : State) : Word :=
  match i with
  | .jr rs => s.reg rs
  | .beq rs rt imm16 => if s.reg rs = s.reg rt then s.pc + imm16.signExtend 32 <<< 2 else s.pc
  | .j addr26 =>
    if (jumpTarget s.compatJump addr26).toNat < Config.jTargetLimit then jumpTarget s.compatJump addr26 else s.pc
  | .add .. | .and .. | .addi .. | .andi .. | .lw .. | .sw .. => s.pc

/-- Only a `pc` write moves `pc` from `pc4`. -/
theorem Effect.apply_pc_of_ne {e : Effect} (h : ∀ p, e ≠ .setPc p) (s : State) : (e.apply s).pc = s.pc := by
  cases e with
  | setPc p => exact absurd rfl (h p)
  | _ => rfl

/-- Every instruction leaves `pc` at the value of its row of the table. -/
theorem exec_pc {i : Instr} {s t : State} (h : exec i s = .next t) : t.pc = nextPc i s := by
  rw [exec_eq, Host.Outcome.next.injEq] at h
  subst h
  cases i with
  | j addr26 | beq rs rt imm16 =>
    simp only [instrEffect, nextPc]
    split <;> rfl
  | lw rt rs imm16 | sw rt rs imm16 =>
    refine Effect.apply_pc_of_ne (fun p => ?_) s
    simp only [instrEffect]
    split <;> exact Effect.noConfusion
  | _ => rfl

theorem add_aligned {a b : Word} (ha : a.toNat % 4 = 0) (hb : b.toNat % 4 = 0) : (a + b).toNat % 4 = 0 := by
  rw [BitVec.toNat_add]
  omega

theorem shiftLeft_two_aligned (v : Word) : (v <<< 2).toNat % 4 = 0 := by
  rw [BitVec.toNat_shiftLeft, Nat.shiftLeft_eq]
  omega

/-- From an aligned `pc4` only `jr` and `j` can leave `pc` misaligned. -/
theorem nextPc_aligned {i : Instr} {s : State} (hjr : ∀ rs, i ≠ .jr rs) (hj : ∀ a, i ≠ .j a) (hs : s.Aligned) :
    (nextPc i s).toNat % 4 = 0 := by
  cases i with
  | jr rs => exact absurd rfl (hjr rs)
  | j addr26 => exact absurd rfl (hj addr26)
  | beq rs rt imm16 =>
    simp only [nextPc]
    split
    · exact add_aligned hs (shiftLeft_two_aligned _)
    · exact hs
  | _ => exact hs

/-! ### Which effect a change shows (R110) -/

theorem Effect.eq_writeReg_of_reg_ne {e : Effect} {s : State} {q : Reg} (h : (e.apply s).reg q ≠ s.reg q) :
    ∃ v, e = .writeReg q v := by
  by_contra hne
  exact h (Effect.apply_reg_of_ne (fun v hv => hne ⟨v, hv⟩) s)

theorem Effect.eq_store_of_dword_ne {e : Effect} {s : State} {a : Nat} (h : (e.apply s).dword a ≠ s.dword a) :
    ∃ v, e = .store a v := by
  by_contra hne
  exact h (Effect.apply_dword_of_ne (fun v hv => hne ⟨v, hv⟩) s)

theorem Effect.eq_report_of_reports_ne {e : Effect} {s : State} (h : (e.apply s).reports ≠ s.reports) :
    ∃ ev, e = .report ev := by
  cases e with
  | report ev => exact ⟨ev, rfl⟩
  | _ => exact absurd rfl h

/-- An effect reports nothing or one event. -/
theorem Effect.apply_reports_cases (e : Effect) (s : State) :
    (e.apply s).reports = s.reports ∨ ∃ ev, (e.apply s).reports = s.reports ++ [ev] := by
  cases e with
  | report ev => exact .inr ⟨ev, rfl⟩
  | _ => exact .inl rfl

/-! ### A machine that has halted (R113) -/

theorem Fault.eq_haltEnd_of_status {f : Fault} (h : f.status = .haltEnd) : f = .haltEnd := by
  cases f with
  | haltEnd => rfl
  | _ => cases h

/-- The fetch reads `pc` and instruction memory, which a halting step leaves. -/
theorem fetch_absorbHalt (s : State) (f : Fault) : fetch (s.absorbHalt f) = fetch s := by
  rw [s.absorbHalt_frame f]
  rfl

/-- A run ends in a state whose fetch halts, and answers that halt. -/
theorem fetch_of_run_ended {n : Nat} {s t : State} {h : HaltStatus} (hr : run n s = (t, some h)) :
    ∃ f, fetch t = .halted f ∧ h = f.status := by
  obtain ⟨u, f, hf, rfl, hstatus⟩ := run_ended_cases hr
  exact ⟨f, (fetch_absorbHalt u f).trans hf, hstatus⟩

theorem run_of_fetch_halted {s : State} {f : Fault} (hf : fetch s = .halted f) (n : Nat) :
    run (n + 1) s = (s.absorbHalt f, some f.status) :=
  run_of_fault (step_fault_iff.2 hf) n

/-- From a halted state a run leaves `pc`, with any fuel. -/
theorem run_pc_of_fetch_halted {s : State} {f : Fault} (hf : fetch s = .halted f) (n : Nat) :
    (run n s).1.pc = s.pc := by
  cases n with
  | zero => rfl
  | succ n => rw [run_of_fetch_halted hf, s.absorbHalt_frame]

/-- Of a halted machine only reset moves `pc` (R113, R193). -/
theorem State.hostOp_pc_of_fetch_halted {s : State} {f : Fault} (hf : fetch s = .halted f) {op : HostOp}
    (hop : op ≠ .reset) : (s.hostOp op).2.pc = s.pc := by
  cases op with
  | reset => exact absurd rfl hop
  | loadInstruction w =>
    show (s.loadInstruction w).pc = _
    obtain ⟨-, h⟩ | ⟨-, h⟩ := s.loadInstruction_cases w
    · rw [h]
    · rw [h, State.report_pc]
  | setRegister index w => show (s.setRegister index w).pc = _; rw [s.setRegister_frame]
  | getRegister index => show (s.getRegister index).2.pc = _; rw [s.getRegister_frame]
  | getDataMemory address => show (s.getDataMemory address).2.pc = _; rw [s.getDataMemory_frame]
  | getProgramCounter => rfl
  | setCompatibilityJumpOffset b => rfl
  | execute fuel => exact run_pc_of_fetch_halted hf fuel

/-- Loads that fit append their words and do nothing else (R194). -/
theorem State.foldl_loadInstruction_of_fits {s : State} {ws : List Word}
    (h : s.imemCount + ws.length ≤ Config.imemSlots) :
    ws.foldl State.loadInstruction s = { s with imem := s.imem ++ ws } := by
  induction ws generalizing s with
  | nil => simp
  | cons w ws ih =>
    rw [List.length_cons] at h
    obtain ⟨-, hload⟩ | ⟨hfull, -⟩ := s.loadInstruction_cases w
    · have hfits : ({ s with imem := s.imem ++ [w] } : State).imemCount + ws.length ≤ Config.imemSlots := by
        simp only [State.imemCount, List.length_append, List.length_singleton] at h ⊢
        omega
      rw [List.foldl_cons, hload, ih hfits, List.append_assoc, List.singleton_append]
    · omega

/-- `HALT_END` is revived by loading up to the slot that `pc` names (R113, D23). -/
theorem State.HaltsWith.running_of_loads {s : State} (h : s.HaltsWith .haltEnd) {ws : List Word}
    (hslot : s.pc.toNat / 4 < s.imemCount + ws.length) :
    ({ s with imem := s.imem ++ ws } : State).haltStatus = .running := by
  obtain ⟨hcap, halign, -⟩ := h
  have hpresent : s.pc.toNat / 4 < (s.imem ++ ws).length := List.length_append ▸ hslot
  exact haltStatus_of_fetch_word (fetch_word_iff.2 ⟨hcap, halign, List.getElem?_eq_getElem hpresent⟩)

/-! ### The statements -/

/-- Settles O11: none of the nine tests selects the word, so the step is its report on the advanced state. -/
theorem unknownWordIsReportedNoOp : Obligations.UnknownWordIsReportedNoOp := by
  intro s w hcap halign hw hcodes
  have hunknown : ∀ i, decode w ≠ .instr i := decode_ne_instr_of_codes hcodes
  refine ⟨hunknown, (s.setPc (s.pc + 4#32)).report (.unknownOpcodeOrFunctionCode w), ?_, rfl, rfl,
    fun _ => rfl, fun _ => rfl, rfl, rfl⟩
  rw [step_of_fetch_word (fetch_word_iff.2 ⟨hcap, halign, hw⟩), runWord_of_unknown hunknown]

/-- Settles O19: a step halts as the fetch does, and completes where the fetch answers a word. -/
theorem stepHaltsExactlyByThreeTests : Obligations.StepHaltsExactlyByThreeTests := by
  intro s
  have hhalts (f : Fault) : step s = .fault f ↔ s.HaltsWith f := step_fault_iff.trans fetch_halted_iff
  refine ⟨hhalts .haltCapacity, fun p => hhalts (.haltMisaligned p), hhalts .haltEnd, ?_⟩
  obtain ⟨f, hf, hs⟩ | ⟨w, t, hf, hs⟩ := step_cases s
  · simp [hs, haltStatus_of_fetch_halted hf, f.status_ne_running]
  · simp [hs, haltStatus_of_fetch_word hf]

/-- Settles O20: each condition is that of one halt, which the run meets at its first step. -/
theorem runEndsAtThreeHaltsUnchanged : Obligations.RunEndsAtThreeHaltsUnchanged := by
  intro s n
  have hrun {f : Fault} (h : s.HaltsWith f) : run (n + 1) s = (s.absorbHalt f, some f.status) :=
    run_of_fetch_halted (fetch_halted_iff.2 h) n
  exact ⟨fun hcap => hrun (f := .haltCapacity) hcap,
    fun hcap halign => hrun (f := .haltMisaligned s.pc) ⟨rfl, hcap, halign⟩,
    fun hcap halign hend => hrun (f := .haltEnd) ⟨hcap, halign, hend⟩⟩

/-- Settles O23: a run ends where the fetch halts, and of what decides that halt only a load changes anything. -/
theorem haltedCoreStaysHalted : Obligations.HaltedCoreStaysHalted := by
  intro n s t h hr
  obtain ⟨f, hf, rfl⟩ := fetch_of_run_ended hr
  have hhalts : t.HaltsWith f := fetch_halted_iff.1 hf
  refine ⟨haltStatus_of_fetch_halted hf, fun m => ?_, fun hend ws hslot hfits => ?_, fun hstuck op hop => ?_⟩
  · rw [run_of_fetch_halted hf]
    cases f with
    | haltMisaligned p =>
      obtain ⟨rfl, -, -⟩ := hhalts
      rfl
    | _ => rfl
  · have hfault : f = .haltEnd := Fault.eq_haltEnd_of_status hend
    rw [State.foldl_loadInstruction_of_fits hfits]
    exact ⟨(hfault ▸ hhalts).running_of_loads hslot, rfl, rfl, rfl⟩
  · have hfault : f ≠ .haltEnd := by
      rintro rfl
      exact absurd hstuck (by decide)
    have hpc : (t.hostOp op).2.pc = t.pc := State.hostOp_pc_of_fetch_halted hf hop
    exact haltStatus_of_fetch_halted (fetch_halted_iff.2 (hhalts.of_pc_eq hfault hpc))

/-- Settles O24: with the mode off the target of `j` is its zero-extended field. -/
theorem nextPcTable : Obligations.NextPcTable := by
  refine ⟨fun i s t hoff h => ?_, fun w s t h => ?_⟩
  · rw [exec_pc h]
    cases i with
    | j addr26 =>
      have htarget : jumpTarget s.compatJump addr26 = zext32 addr26 := by rw [hoff]; rfl
      have hnext : nextPc (.j addr26) s = if addr26.toNat < Config.jTargetLimit then zext32 addr26 else s.pc := by
        rw [nextPc, htarget, zext32_toNat]
      exact hnext
    | _ => rfl
  · cases h
    rfl

/-- Settles O26: each change shows which one effect the fetched word had on the advanced state. -/
theorem oneEffectPerStep : Obligations.OneEffectPerStep := by
  intro s t h
  obtain ⟨w, -, rfl⟩ := step_next_iff.1 h
  generalize wordEffect w (s.setPc (s.pc + 4#32)) = e
  refine ⟨fun q r hq hr => ?_, fun a b ha hb => ?_, e.apply_reports_cases _, fun q hq => ?_, fun a ha => ?_,
    fun hreports => ?_⟩
  · obtain ⟨v, rfl⟩ := Effect.eq_writeReg_of_reg_ne hq
    obtain ⟨v', hv'⟩ := Effect.eq_writeReg_of_reg_ne hr
    cases hv'
    rfl
  · obtain ⟨v, rfl⟩ := Effect.eq_store_of_dword_ne ha
    obtain ⟨v', hv'⟩ := Effect.eq_store_of_dword_ne hb
    cases hv'
    rfl
  · obtain ⟨v, rfl⟩ := Effect.eq_writeReg_of_reg_ne hq
    exact ⟨fun _ => rfl, rfl⟩
  · obtain ⟨v, rfl⟩ := Effect.eq_store_of_dword_ne ha
    rfl
  · obtain ⟨ev, rfl⟩ := Effect.eq_report_of_reports_ne hreports
    exact ⟨fun _ => rfl, fun _ => rfl, rfl⟩

/-- Settles O33: a fetch succeeds from an aligned `pc` only, and `pc4` and every branch target keep it so. -/
theorem pcStaysAlignedWithoutJumps : Obligations.PcStaysAlignedWithoutJumps := by
  intro s t w hw hstep hjr hj
  obtain ⟨w', hf, heffect⟩ := step_next_cases hstep
  obtain ⟨-, halign, hw'⟩ := fetch_word_iff.1 hf
  obtain rfl : w' = w := Option.some.inj (hw'.symm.trans hw)
  have hpc4 : (s.setPc (s.pc + 4#32)).Aligned := add_aligned halign rfl
  obtain ⟨i, hd, hexec⟩ | ⟨-, rfl⟩ := heffect
  · show t.pc.toNat % 4 = 0
    rw [exec_pc hexec]
    exact nextPc_aligned (fun rs hi => hjr rs (hi ▸ hd)) (fun a hi => hj a (hi ▸ hd)) hpc4
  · exact hpc4

/-- Settles O18: the fetched word runs on the advanced state, and a fetched `pc` is below 800. -/
theorem stepRunsDecodedInstruction : Obligations.StepRunsDecodedInstruction := by
  intro s w i hcap halign hw hd
  have hf : fetch s = .word w := fetch_word_iff.2 ⟨hcap, halign, hw⟩
  constructor
  · calc step s = runWord w (s.setPc (s.pc + 4#32)) := step_of_fetch_word hf
      _ = exec i (s.setPc (s.pc + 4#32)) := runWord_of_decode hd _
      _ = exec i (s.setPc (BitVec.ofNat 32 (s.pc.toNat + 4))) := by rw [add_four_eq_ofNat]
  · simp only [Config.imemSlots] at hcap
    omega

end Sys2Proof.Machine
end

section
/-! PROOFS of the family 42_rtype: `add` and `and` write one register, `jr` writes `pc`, and nothing else changes
(R120 to R122). -/

namespace Sys2Proof.Machine

/-! ### The frame of an instruction with one write -/

/-- An instruction whose effect is a register write completes, and changes that register alone. -/
theorem exec_of_writeReg {i : Instr} {s : State} {r : Reg} {v : Word} (h : instrEffect i s = .writeReg r v) :
    ∃ t, exec i s = .next t ∧ t.reg r = v ∧ (∀ q, q ≠ r → t.reg q = s.reg q) ∧
      t.pc = s.pc ∧ s.SameData t ∧ s.SameHostState t ∧ t.reports = s.reports := by
  have hexec : exec i s = .next (s.setReg r v) := by rw [exec_eq, h, Effect.apply]
  exact ⟨s.setReg r v, hexec, s.setReg_reg_same r v, fun _ hq => s.setReg_reg_other r v hq,
    rfl, fun _ => rfl, ⟨rfl, rfl⟩, rfl⟩

/-- An instruction whose effect is a `pc` write completes, and changes `pc` alone. -/
theorem exec_of_setPc {i : Instr} {s : State} {p : Word} (h : instrEffect i s = .setPc p) :
    ∃ t, exec i s = .next t ∧ t.pc = p ∧ (∀ q, t.reg q = s.reg q) ∧
      s.SameData t ∧ s.SameHostState t ∧ t.reports = s.reports := by
  have hexec : exec i s = .next (s.setPc p) := by rw [exec_eq, h, Effect.apply]
  exact ⟨s.setPc p, hexec, rfl, fun _ => rfl, fun _ => rfl, ⟨rfl, rfl⟩, rfl⟩

/-! ### The statements -/

/-- Settles O1: the row of `add` selects the words that decode to it, and its one effect is to write the sum. -/
theorem addWritesWrappedSum : Obligations.AddWritesWrappedSum := by
  refine ⟨and_row_iff_decode (.add 0 0 0), fun rd rs rt s => ?_⟩
  have heffect : instrEffect (.add rd rs rt) s = .writeReg rd (s.reg rs + s.reg rt) := rfl
  obtain ⟨t, hexec, hrd, hframe⟩ := exec_of_writeReg heffect
  exact ⟨t, hexec, hrd ▸ BitVec.toNat_add _ _, hframe⟩

/-- Settles O2: the row of `and` selects the words that decode to it, and its one effect is to write the conjunction. -/
theorem andWritesBitwiseAnd : Obligations.AndWritesBitwiseAnd := by
  refine ⟨and_row_iff_decode (.and 0 0 0), fun rd rs rt s => ?_⟩
  have heffect : instrEffect (.and rd rs rt) s = .writeReg rd (s.reg rs &&& s.reg rt) := rfl
  obtain ⟨t, hexec, hrd, hframe⟩ := exec_of_writeReg heffect
  exact ⟨t, hexec, fun _ _ => hrd ▸ BitVec.getLsbD_and, hframe⟩

/-- Settles O3: the row of `jr` selects the words that decode to it, and its one effect is to write `pc`. -/
theorem jrLoadsPcFromRegister : Obligations.JrLoadsPcFromRegister :=
  ⟨and_row_iff_decode (.jr 0), fun rs s => exec_of_setPc (show instrEffect (.jr rs) s = .setPc (s.reg rs) from rfl)⟩

end Sys2Proof.Machine
end

section
/-! PROOFS of the family 43_itype: the immediate as a signed integer, what each I-type instruction changes and leaves
alone, and where the readings of the two open parameters agree (R131 to R135, R151, D4, D6). -/

namespace Sys2Proof.Machine

/-! ### The immediate (R64, R130) -/

/-- Adding the sign-extended immediate is integer addition modulo `2^32`. -/
theorem add_signExtend_eq_ofInt (v : Word) (imm16 : BitVec 16) :
    v + imm16.signExtend 32 = BitVec.ofInt 32 (v.toNat + imm16.toInt) := by
  rw [BitVec.ofInt_add, BitVec.ofInt_natCast, BitVec.ofNat_toNat, BitVec.setWidth_eq]
  rfl

/-- The signed branch offset counts in instructions (R135). -/
theorem signExtend_shiftLeft_two (imm16 : BitVec 16) :
    imm16.signExtend 32 <<< 2 = BitVec.ofInt 32 (imm16.toInt * 4) := by
  rw [BitVec.ofInt_mul, BitVec.shiftLeft_eq_mul_twoPow]
  rfl

/-- The taken `beq` is integer addition modulo `2^32` (R135). -/
theorem add_signExtend_shiftLeft_two_eq_ofInt (pc4 : Word) (imm16 : BitVec 16) :
    pc4 + imm16.signExtend 32 <<< 2 = BitVec.ofInt 32 (pc4.toNat + imm16.toInt * 4) := by
  rw [BitVec.ofInt_add, BitVec.ofInt_natCast, BitVec.ofNat_toNat, BitVec.setWidth_eq, signExtend_shiftLeft_two]

/-- From bit 15 up, every bit of the sign-extended immediate is its bit 15 (R64). -/
theorem getLsbD_signExtend_imm16 (imm16 : BitVec 16) {i : Nat} (hi : i < 32) :
    (imm16.signExtend 32).getLsbD i = imm16.getLsbD (min i 15) := by
  rw [BitVec.getLsbD_signExtend, decide_eq_true hi, Bool.true_and]
  by_cases hlow : i < 16
  · rw [if_pos hlow, Nat.min_eq_left (by omega)]
  · rw [if_neg hlow, Nat.min_eq_right (by omega), BitVec.msb_eq_getLsbD_last]

/-- The word address as the integer the rules give it (R41). -/
theorem State.wordAddress_eq_ofInt (s : State) (rs : Reg) (imm16 : BitVec 16) :
    s.wordAddress rs imm16 = (BitVec.ofInt 32 ((s.reg rs).toNat + imm16.toInt)).toNat := by
  rw [State.wordAddress_eq, add_signExtend_eq_ofInt]

/-! ### The frame of an instruction with one report, and of one with no effect -/

/-- An instruction whose effect is a report completes, and changes the history alone. -/
theorem exec_of_report {i : Instr} {s : State} {e : Event} (h : instrEffect i s = .report e) :
    ∃ t, exec i s = .next t ∧ t.reports = s.reports ++ [e] ∧ (∀ q, t.reg q = s.reg q) ∧
      t.pc = s.pc ∧ s.SameData t ∧ s.SameHostState t := by
  have hexec : exec i s = .next (s.report e) := by rw [exec_eq, h, Effect.apply]
  exact ⟨s.report e, hexec, rfl, fun _ => rfl, rfl, fun _ => rfl, rfl, rfl⟩

/-- An instruction with no effect completes in the state it started in. -/
theorem exec_of_nothing {i : Instr} {s : State} (h : instrEffect i s = .nothing) : exec i s = .next s := by
  rw [exec_eq, h, Effect.apply]

/-! ### The two readings of D4 and D6 -/

/-- Both extensions agree on a nonnegative immediate. On a negative one the offsets differ in bit 31, which is bit 29 of
the extension. -/
theorem branchOffset_eq_iff (imm16 : BitVec 16) :
    branchOffset true imm16 = branchOffset false imm16 ↔ imm16.toNat < 0x8000 := by
  have hsign : imm16.msb = decide (0x8000 ≤ imm16.toNat) := BitVec.msb_eq_decide imm16
  constructor
  · intro heq
    by_contra hneg
    have hmsb : imm16.msb = true := hsign.trans (decide_eq_true (Nat.le_of_not_lt hneg))
    have hsigned : (branchOffset true imm16).getLsbD 31 = true := by
      simp [branchOffset, shiftLeft, sext32, BitVec.getLsbD_signExtend, hmsb]
    have hunsigned : (branchOffset false imm16).getLsbD 31 = false := by
      simp [branchOffset, shiftLeft, zext32]
    rw [heq, hunsigned] at hsigned
    cases hsigned
  · intro hpos
    have hmsb : imm16.msb = false := hsign.trans (decide_eq_false (Nat.not_le_of_lt hpos))
    have hext : sext32 imm16 = zext32 imm16 := BitVec.signExtend_eq_setWidth_of_msb_false hmsb
    simp only [branchOffset, hext, ite_self]

/-- An accepted jump and a rejected one differ in the history. -/
theorem State.setPc_ne_report (s : State) (t : Word) (e : Event) : s.setPc t ≠ s.report e := by
  intro h
  have hreports : s.reports = s.reports ++ [e] := congrArg State.reports h
  simp at hreports

/-- Two limits give the same jump exactly where both accept the target or both reject it. -/
theorem State.jumpWithin_eq_iff (s : State) (t : Word) (m n : Nat) :
    s.jumpWithin m t = s.jumpWithin n t ↔ (t.toNat < m ↔ t.toNat < n) := by
  obtain ⟨hm, hjm⟩ | ⟨hm, hjm⟩ := s.jumpWithin_cases m t <;>
    obtain ⟨hn, hjn⟩ | ⟨hn, hjn⟩ := s.jumpWithin_cases n t <;> rw [hjm, hjn]
  · exact iff_of_true rfl (iff_of_true hm hn)
  · exact iff_of_false (s.setPc_ne_report t _) (by omega)
  · exact iff_of_false (s.setPc_ne_report t _).symm (by omega)
  · exact iff_of_true rfl (by omega)

/-! ### The statements -/

/-- Settles O6: the row of `beq` selects the words that decode to it, and its one effect is to write `pc` where the
registers are equal. -/
theorem beqBranchesWhenEqual : Obligations.BeqBranchesWhenEqual := by
  refine ⟨and_row_iff_decode (.beq 0 0 0), fun rs rt imm16 s => ?_⟩
  by_cases heq : s.reg rs = s.reg rt
  · have heffect : instrEffect (.beq rs rt imm16) s = .setPc (s.pc + imm16.signExtend 32 <<< 2) := if_pos heq
    rw [if_pos heq, ← add_signExtend_shiftLeft_two_eq_ofInt]
    exact exec_of_setPc heffect
  · have heffect : instrEffect (.beq rs rt imm16) s = .nothing := if_neg heq
    rw [if_neg heq]
    exact ⟨s, exec_of_nothing heffect, rfl, fun _ => rfl, fun _ => rfl, ⟨rfl, rfl⟩, rfl⟩

/-- Settles O7: the row of `addi` selects the words that decode to it, and its one effect is to write the sum. -/
theorem addiWritesWrappedSum : Obligations.AddiWritesWrappedSum := by
  refine ⟨and_row_iff_decode (.addi 0 0 0), fun rt rs imm16 s => ?_⟩
  have heffect : instrEffect (.addi rt rs imm16) s = .writeReg rt (s.reg rs + imm16.signExtend 32) := rfl
  rw [← add_signExtend_eq_ofInt]
  exact exec_of_writeReg heffect

/-- Settles O8: the row of `andi` selects the words that decode to it, and its one effect is to write the conjunction
with the sign-extended immediate. -/
theorem andiMasksWithSignExtension : Obligations.AndiMasksWithSignExtension := by
  refine ⟨and_row_iff_decode (.andi 0 0 0), fun rt rs imm16 s => ?_⟩
  have heffect : instrEffect (.andi rt rs imm16) s = .writeReg rt (s.reg rs &&& imm16.signExtend 32) := rfl
  obtain ⟨t, hexec, hrt, hframe⟩ := exec_of_writeReg heffect
  refine ⟨t, hexec, fun i hi => ?_, hframe⟩
  rw [hrt, BitVec.getLsbD_and, getLsbD_signExtend_imm16 imm16 hi]

/-- Settles O9: the row of `lw` selects the words that decode to it, and its one effect is to write the addressed word
in range and to report the address out of range. -/
theorem lwLoadsWordInRange : Obligations.LwLoadsWordInRange := by
  refine ⟨and_row_iff_decode (.lw 0 0 0), fun rt rs imm16 s a ha => ?_⟩
  obtain rfl : a = s.wordAddress rs imm16 := ha.trans (s.wordAddress_eq_ofInt rs imm16).symm
  by_cases hr : s.wordAddress rs imm16 < Config.dmemWords
  · have heffect : instrEffect (.lw rt rs imm16) s = .writeReg rt (s.dword (s.wordAddress rs imm16)) := if_pos hr
    obtain ⟨t, hexec, hrt, hregs, hpc, hdata, hhost, hreports⟩ := exec_of_writeReg heffect
    simp only [if_pos hr]
    exact ⟨t, hexec, hrt, hregs, hreports, hpc, hdata, hhost⟩
  · have heffect : instrEffect (.lw rt rs imm16) s =
        .report (.outOfRangeMemoryAddress (s.wordAddress rs imm16)) := if_neg hr
    obtain ⟨t, hexec, hreports, hregs, hpc, hdata, hhost⟩ := exec_of_report heffect
    simp only [if_neg hr]
    exact ⟨t, hexec, hregs rt, fun q _ => hregs q, hreports, hpc, hdata, hhost⟩

/-- Settles O10: the row of `sw` selects the words that decode to it, and its one effect is to store the addressed word
in range and to report the address out of range. -/
theorem swStoresWordInRange : Obligations.SwStoresWordInRange := by
  refine ⟨and_row_iff_decode (.sw 0 0 0), fun rt rs imm16 s a ha => ?_⟩
  obtain rfl : a = s.wordAddress rs imm16 := ha.trans (s.wordAddress_eq_ofInt rs imm16).symm
  by_cases hr : s.wordAddress rs imm16 < Config.dmemWords
  · refine ⟨_, exec_sw_of_inRange hr, fun hs _ => State.dword_writeWord_same hs hr _, fun b hb => ?_,
      (if_pos hr).symm, fun _ => rfl, rfl, rfl, rfl⟩
    exact Memory.readByte_writeWord_other _ _ _ _ (by omega)
  · have heffect : instrEffect (.sw rt rs imm16) s =
        .report (.outOfRangeMemoryAddress (s.wordAddress rs imm16)) := if_neg hr
    obtain ⟨t, hexec, hreports, hregs, hpc, hdata, hhost⟩ := exec_of_report heffect
    rw [if_neg hr]
    exact ⟨t, hexec, fun _ h => absurd h hr, fun b _ => hdata b, hreports, hregs, hpc, hhost⟩

/-- Settles O46: the sign bit decides the two offsets, and membership below both limits or neither the two jumps. -/
theorem parameterReadingsAgree : Obligations.ParameterReadingsAgree := by
  refine ⟨branchOffset_eq_iff, fun s t => (s.jumpWithin_eq_iff t _ _).trans ?_⟩
  simp only [Config.imemSlots]
  omega

end Sys2Proof.Machine
end

section
/-! PROOFS of the family 44_jtype: one range check on the target of either mode of `j`, and nothing else changes
(R150 to R152). -/

namespace Sys2Proof.Machine

/-! ### The range check on the target (R151, R152) -/

/-- In either mode `j` completes: a target below the limit goes to `pc`, any other is reported, and nothing else
changes. -/
theorem exec_j_of_jumpTarget {addr26 : BitVec 26} {s : State} {p : Word}
    (hp : jumpTarget s.compatJump addr26 = p) :
    ∃ t, exec (.j addr26) s = .next t ∧
      t.pc = (if p.toNat < Config.jTargetLimit then p else s.pc) ∧
      t.reports = (if p.toNat < Config.jTargetLimit then s.reports
        else s.reports ++ [.jumpTargetOutOfRange p]) ∧
      (∀ q, t.reg q = s.reg q) ∧ s.SameData t ∧ s.SameHostState t := by
  subst hp
  by_cases hlt : (jumpTarget s.compatJump addr26).toNat < Config.jTargetLimit
  · have heffect : instrEffect (.j addr26) s = .setPc (jumpTarget s.compatJump addr26) := if_pos hlt
    obtain ⟨t, hexec, hpc, hregs, hdata, hhost, hreports⟩ := exec_of_setPc heffect
    simp only [if_pos hlt]
    exact ⟨t, hexec, hpc, hreports, hregs, hdata, hhost⟩
  · have heffect : instrEffect (.j addr26) s =
        .report (.jumpTargetOutOfRange (jumpTarget s.compatJump addr26)) := if_neg hlt
    obtain ⟨t, hexec, hreports, hregs, hpc, hdata, hhost⟩ := exec_of_report heffect
    simp only [if_neg hlt]
    exact ⟨t, hexec, hpc, hreports, hregs, hdata, hhost⟩

/-! ### The statements -/

/-- Settles O4: the row of `j` selects the words that decode to it, and with the mode off the range check is on the
field, whose value the zero extension keeps. -/
theorem jLoadsFieldBelowLimit : Obligations.JLoadsFieldBelowLimit := by
  refine ⟨and_row_iff_decode (.j 0), fun addr26 s hoff => ?_⟩
  have htarget : jumpTarget s.compatJump addr26 = addr26.setWidth 32 := by simp [jumpTarget_eq, hoff]
  have hvalue : (addr26.setWidth 32).toNat = addr26.toNat := zext32_toNat addr26
  rw [← hvalue]
  exact exec_j_of_jumpTarget htarget

/-- Settles O5: with the mode on the range check is on the adjusted target, whatever the adjustment. -/
theorem jCompatModeUsesAdjustedTarget : Obligations.JCompatModeUsesAdjustedTarget := by
  intro addr26 s hon
  have htarget : jumpTarget s.compatJump addr26 = Config.jumpCompatAdjust addr26 := by simp [jumpTarget_eq, hon]
  exact exec_j_of_jumpTarget htarget

end Sys2Proof.Machine
end

section
/-! PROOFS of the family 60_exceptions: no instruction and no step is refused, and which condition each instruction can
report (R169, R170, R172). -/

namespace Sys2Proof.Machine

/-! ### What completes (R7, R108, R169) -/

/-- The unknown instruction completes with its one report and no other effect. -/
theorem execUnknown_eq (w : Word) (s : State) :
    execUnknown w s = .next (s.report (.unknownOpcodeOrFunctionCode w)) := rfl

theorem step_ne_refused (s : State) (r : Refusal) : step s ≠ .refused r := by
  intro h
  obtain ⟨f, -, hs⟩ | ⟨w, t, -, hs⟩ := step_cases s
  · rw [hs] at h; cases h
  · rw [hs] at h; cases h

/-! ### Which instruction reports, and what (R164, R167, R172) -/

/-- Only `lw` and `sw` at an address out of range and `j` to a target at or above the limit report, each that very
address or target. -/
theorem instrEffect_report {i : Instr} {s : State} {e : Event} (h : instrEffect i s = .report e) :
    (∃ rt rs imm16, (i = .lw rt rs imm16 ∨ i = .sw rt rs imm16) ∧ Config.dmemWords ≤ s.wordAddress rs imm16 ∧
      e = .outOfRangeMemoryAddress (s.wordAddress rs imm16)) ∨
    ∃ addr26, i = .j addr26 ∧ Config.jTargetLimit ≤ (jumpTarget s.compatJump addr26).toNat ∧
      e = .jumpTargetOutOfRange (jumpTarget s.compatJump addr26) := by
  cases i with
  | lw rt rs imm16 =>
    simp only [instrEffect] at h
    split at h <;> cases h
    exact .inl ⟨rt, rs, imm16, .inl rfl, Nat.not_lt.1 ‹_›, rfl⟩
  | sw rt rs imm16 =>
    simp only [instrEffect] at h
    split at h <;> cases h
    exact .inl ⟨rt, rs, imm16, .inr rfl, Nat.not_lt.1 ‹_›, rfl⟩
  | j addr26 =>
    simp only [instrEffect] at h
    split at h <;> cases h
    exact .inr ⟨addr26, rfl, Nat.not_lt.1 ‹_›, rfl⟩
  | beq rs rt imm16 => simp only [instrEffect] at h; split at h <;> cases h
  | _ => cases h

/-- An instruction that completes leaves the history alone, or its effect is the report of the one event added. -/
theorem exec_reports_cases {i : Instr} {s t : State} (h : exec i s = .next t) :
    t.reports = s.reports ∨ ∃ e, t.reports = s.reports ++ [e] ∧ instrEffect i s = .report e := by
  rw [exec_eq, Host.Outcome.next.injEq] at h
  subst h
  by_cases hsame : ((instrEffect i s).apply s).reports = s.reports
  · exact .inl hsame
  · obtain ⟨e, he⟩ := Effect.eq_report_of_reports_ne hsame
    exact .inr ⟨e, by rw [he, Effect.apply_reports, Effect.events], he⟩

/-! ### The statements -/

/-- Settles O21: a known or unknown instruction completes on every state, and a step completes or halts as the fetch
does. -/
theorem stepNeverRefusesAndInstructionsComplete : Obligations.StepNeverRefusesAndInstructionsComplete :=
  fun s => ⟨fun i => exec_completes i s, fun w => ⟨_, execUnknown_eq w s⟩, step_ne_refused s⟩

/-- Settles O25: an event added is the one the instruction's effect reports, and the effect fixes both. -/
theorem eachInstructionHasItsOneCondition : Obligations.EachInstructionHasItsOneCondition := by
  refine ⟨fun i s t h => ?_, fun w s t h => ?_⟩
  · obtain hsame | ⟨e, hadd, he⟩ := exec_reports_cases h
    · exact .inl hsame
    · refine .inr ⟨e, hadd, ?_⟩
      obtain ⟨rt, rs, imm16, rfl | rfl, -, rfl⟩ | ⟨addr26, rfl, -, rfl⟩ := instrEffect_report he
      · exact ⟨_, rfl⟩
      · exact ⟨_, rfl⟩
      · exact ⟨_, rfl⟩
  · rw [execUnknown_eq, Host.Outcome.next.injEq] at h
    rw [← h, State.report_reports]

end Sys2Proof.Machine
end

section
/-! PROOFS of the family 70_reset_and_hazards: the power-on state and the reset operation, loads up to and past the
capacity, the register ports and the flag's port (R190 to R199). -/

namespace Sys2Proof.Machine

/-! ### Power-on and reset (R38, R190, R192) -/

@[simp] theorem State.resetOp_reg (s : State) (r : Reg) : s.resetOp.reg r = 0 := State.reset_reg r

@[simp] theorem State.resetOp_dword (s : State) (a : Nat) : s.resetOp.dword a = 0 := Memory.readWord_nil a

/-- Power-on is what the reset operation leaves, but for the flag and the history that it keeps. -/
theorem State.resetOp_withFlagOff (s : State) :
    { s.resetOp with compatJump := false } = { State.reset with reports := s.reports } := rfl

/-- After reset `pc` names the first slot, which is absent. -/
theorem State.resetOp_haltsWith_haltEnd (s : State) : s.resetOp.HaltsWith .haltEnd := by
  simp [State.HaltsWith]

/-! ### Loads (R194) -/

/-- With every slot filled each load is only reported. -/
theorem State.foldl_loadInstruction_of_full {s : State} (h : Config.imemSlots ≤ s.imemCount) (ws : List Word) :
    ws.foldl State.loadInstruction s =
      { s with reports := s.reports ++ ws.map .instructionCapacityExceeded } := by
  induction ws generalizing s with
  | nil => simp
  | cons w ws ih =>
    obtain ⟨hfree, -⟩ | ⟨-, hload⟩ := s.loadInstruction_cases w
    · omega
    · have hfull : Config.imemSlots ≤ (s.report (.instructionCapacityExceeded w)).imemCount := h
      rw [List.foldl_cons, hload, ih hfull, State.report_reports, List.append_assoc, List.singleton_append,
        List.map_cons]
      rfl

/-- Any loads: the words that find a slot are appended, the later ones are only reported. -/
theorem State.foldl_loadInstruction_eq {s : State} (h : s.imemCount ≤ Config.imemSlots) (ws : List Word) :
    ws.foldl State.loadInstruction s =
      { s with
        imem := s.imem ++ ws.take (Config.imemSlots - s.imemCount)
        reports := s.reports ++ (ws.drop (Config.imemSlots - s.imemCount)).map .instructionCapacityExceeded } := by
  obtain hfits | hover := le_or_gt ws.length (Config.imemSlots - s.imemCount)
  · rw [State.foldl_loadInstruction_of_fits (by omega), List.take_of_length_le hfits, List.drop_of_length_le hfits,
      List.map_nil, List.append_nil]
  · have hlength : (ws.take (Config.imemSlots - s.imemCount)).length = Config.imemSlots - s.imemCount :=
      List.length_take_of_le hover.le
    have hfirst : (ws.take (Config.imemSlots - s.imemCount)).foldl State.loadInstruction s =
        { s with imem := s.imem ++ ws.take (Config.imemSlots - s.imemCount) } :=
      State.foldl_loadInstruction_of_fits (by omega)
    have hfull : Config.imemSlots ≤
        ({ s with imem := s.imem ++ ws.take (Config.imemSlots - s.imemCount) } : State).imemCount := by
      rw [State.imemCount, List.length_append, hlength]
      exact (Nat.add_sub_cancel' h).ge
    calc ws.foldl State.loadInstruction s
      _ = (ws.drop (Config.imemSlots - s.imemCount)).foldl State.loadInstruction
            ((ws.take (Config.imemSlots - s.imemCount)).foldl State.loadInstruction s) := by
          rw [← List.foldl_append, List.take_append_drop]
      _ = _ := by rw [hfirst, State.foldl_loadInstruction_of_full hfull]

/-! ### The register ports (R195, R196) -/

/-- Through a port index from 0 to 31 a write is the write of that register. -/
theorem State.setRegister_of_reg (s : State) (r : Reg) (v : Word) :
    s.setRegister (r.val : Int) v = s.setReg r v := by
  simp only [State.setRegister, (portReg_eq _ r).2 rfl]

/-- Through a port index from 0 to 31 a read is the read of that register. -/
theorem State.getRegister_of_reg (s : State) (r : Reg) : s.getRegister (r.val : Int) = (some (s.reg r), s) := by
  simp only [State.getRegister, (portReg_eq _ r).2 rfl]

/-! ### The statements -/

/-- Settles O39: the words that find a slot are the old and new words cut at the capacity, since the old ones fit. -/
theorem loadsFillSlotsInOrder : Obligations.LoadsFillSlotsInOrder := by
  rintro s ws ⟨hcount, -⟩
  have hcut : (s.imem ++ ws).take Config.imemSlots = s.imem ++ ws.take (Config.imemSlots - s.imemCount) := by
    rw [List.take_append, List.take_of_length_le hcount, State.imemCount]
  rw [State.foldl_loadInstruction_eq hcount, hcut]
  exact ⟨rfl, rfl, rfl, rfl, rfl, rfl⟩

/-- Settles O40: for an index that names a register the ports are the register's own write and read. -/
theorem registerPortReadsBackWhatWasSet : Obligations.RegisterPortReadsBackWhatWasSet := by
  intro s r v
  rw [State.setRegister_of_reg, State.getRegister_of_reg, State.getRegister_of_reg, State.setReg_reg_same]
  exact ⟨rfl, fun q hq => s.setReg_reg_other r v hq, rfl, rfl, rfl⟩

/-- Settles O37: power-on is all zero and is what reset leaves of it. -/
theorem powerOnState : Obligations.PowerOnState :=
  ⟨State.reset_reg, fun a => Memory.readWord_nil a, rfl, rfl, rfl, State.reset.resetOp_withFlagOff⟩

/-- Settles O38: reset zeroes and empties, and at an empty first slot the run's first step halts. -/
theorem resetZeroesAllButFlag : Obligations.ResetZeroesAllButFlag := by
  intro s
  have hfetch : fetch s.resetOp = .halted .haltEnd := fetch_halted_iff.2 s.resetOp_haltsWith_haltEnd
  exact ⟨s.resetOp_reg, s.resetOp_dword, s.resetOp_imemCount, fun _ => List.getElem?_nil, s.resetOp_pc,
    s.resetOp_compatJump, s.resetOp_reports, run_of_fetch_halted hfetch⟩

/-- Settles O44: the host operation is the flag's own write. -/
theorem setCompatFlagSetsOnlyTheFlag : Obligations.SetCompatFlagSetsOnlyTheFlag :=
  fun s b => show s.setCompatibilityJumpOffset b = { s with compatJump := b } from rfl

end Sys2Proof.Machine
end

section
/-! PROOFS of the family other: the words written out in the spec's vectors (95_test_vectors.md sections 1 to 3). -/

namespace Sys2Proof

open Sys2Proof.Machine

/-- A word decodes to the instruction it encodes. -/
theorem decode_of_encode_eq {i : Instr} {w : Word} (h : encode i = w) : decode w = .instr i :=
  h ▸ decodeEncodeRoundTrip i

/-- A word of opcode 0 with none of the three R-type function codes is unknown by its function code (R69, R70). -/
theorem decode_eq_unknownFunct {w : Word} (hop : opcodeField w = 0) (hfunct : functField w ∉ [8, 32, 36]) :
    decode w = .unknownFunct (functField w) := by
  obtain ⟨h8, h32, h36⟩ : functField w ≠ 8 ∧ functField w ≠ 32 ∧ functField w ≠ 36 := by simpa using hfunct
  rw [decode, if_pos hop, decodeRType, if_neg h32, if_neg h36, if_neg h8]

/-- A word with none of the seven opcodes is unknown by its opcode (R68, R70). -/
theorem decode_eq_unknownOpcode {w : Word} (hop : opcodeField w ∉ [0, 2, 4, 8, 12, 35, 43]) :
    decode w = .unknownOpcode (opcodeField w) := by
  obtain ⟨h0, h2, h4, h8, h12, h35, h43⟩ : opcodeField w ≠ 0 ∧ opcodeField w ≠ 2 ∧ opcodeField w ≠ 4 ∧
      opcodeField w ≠ 8 ∧ opcodeField w ≠ 12 ∧ opcodeField w ≠ 35 ∧ opcodeField w ≠ 43 := by simpa using hop
  rw [decode, if_neg h0, if_neg h2, decodeIType, if_neg h8, if_neg h12, if_neg h35, if_neg h43, if_neg h4]

/-- Settles O17: nine of the words are the encodings of the instructions named, and the other two have function
code 0 under opcode 0 and opcode 63, which no instruction has. -/
theorem specExampleWordsDecode : Obligations.SpecExampleWordsDecode :=
  ⟨decode_of_encode_eq (by decide), decode_of_encode_eq (by decide), decode_of_encode_eq (by decide),
    decode_of_encode_eq (by decide), decode_of_encode_eq (by decide), decode_of_encode_eq (by decide),
    decode_of_encode_eq (by decide), decode_of_encode_eq (by decide), decode_of_encode_eq (by decide),
    decode_eq_unknownFunct (by decide) (by decide), decode_eq_unknownOpcode (by decide)⟩

end Sys2Proof
end
